-- ==== Sys2Proof/Word.lean ====
section
/-! DEFINITION. The fixed widths of the engine (00_scope.md R8, R9) as types. -/

namespace Sys2Proof

/-- A 32-bit word: a register of the window, a segment (`SEG_W`, R8). -/
abbrev Word := BitVec 32

/-- An expanded word of the round function (`EXP_W`, R8). -/
abbrev Expanded := BitVec 48

/-- A block, the domain of a permutation table (`BLK_W`, R8). -/
abbrev Block := BitVec 64

/-- One entry of `PT` or `PTI` (R9). -/
abbrev Entry := BitVec 6

/-- Eight ordered segments: a message, a key, a digest or a ciphertext (`NSEG`, R8, R19). -/
abbrev Segments := Fin 8 → Word

/-- A permutation table as a function on positions (`PT_N`, R8; R102). -/
abbrev Table := Fin 64 → Fin 64

/-- The contents of the expansion ROM (R10, R33). -/
abbrev ExpMap := Fin 48 → Fin 32

/-- The contents of the S-box ROM: box, row, column (R10, R34). -/
abbrev SboxRom := Fin 8 → Fin 4 → Fin 16 → BitVec 4

end Sys2Proof
end

