-- ==== Sys2Proof/Config.lean ====
section
/-! DEFINITION. The parameters the spec leaves open (00_scope.md R10, 10_state.md R39) and the free value of `GEN`.
Each is a constant without a body: nothing proved about the model can depend on what it is. -/

namespace Sys2Proof

/-- `EXP_MAP`, the contents of the expansion ROM (R10, R33; log entry 4). -/
opaque Config.expMap : ExpMap

/-- `SBOX_ROM`, the contents of the S-box ROM (R10, R34; log entry 4). -/
opaque Config.sboxRom : SboxRom

/-- The number of the 4096-byte page of the host bus that holds the register window (R50; log entry 6). -/
opaque Config.basePage : Nat

/-- `BASE`, a multiple of 4096 (R50). -/
def Config.base : Nat := 4096 * Config.basePage

/-- The draw `σ` of the n-th `GEN`: some bijection on the 64 positions, chosen by nobody (R10, R131; log entry 5). -/
opaque Config.genDraw : Nat → Equiv.Perm (Fin 64)

end Sys2Proof
end

