-- ==== Sys2Proof/Syntax.lean ====
section
/-! DEFINITION. The twelve commands (30_encoding.md R72), one constructor per row of the opcode table. -/

namespace Sys2Proof

/-- A decoded command. `LEN` is the only operand field, and only `SEGMENT` carries it (R71, R73). -/
inductive Instr where
  /-- No operation (R130). -/
  | nop
  /-- Generate a table and its inverse (R131). -/
  | gen
  /-- Compute `PTI` from `PT` (R132). -/
  | invert
  /-- Check that `PT` and `PTI` are mutual inverses (R133). -/
  | verify
  /-- Apply `PT` to four blocks of `DIN` (R134). -/
  | permFwd
  /-- Apply `PTI` to four blocks of `DIN` (R135). -/
  | permInv
  /-- Derive the key segments from a digest (R150). -/
  | deriveKey
  /-- Segment a plaintext of `len` bytes (R151). -/
  | segment (len : Nat)
  /-- One Feistel round on each message pair (R170). -/
  | encrypt
  /-- Invert the round, the permutation and the pairing (R171). -/
  | decrypt
  /-- Expose the expander (R160). -/
  | expand
  /-- Expose the S-box array (R161). -/
  | subst
  deriving DecidableEq, Repr

end Sys2Proof
end

