-- ==== Sys2Proof/WellFormed.lean ====
section
/-! DEFINITION. Which terms of `Instr` the command word can carry, and the optional reading of the expansion map. -/

namespace Sys2Proof

/-- `LEN` is an unsigned 8-bit count (30_encoding.md R71). Every other command has no operand. -/
def WellFormed : Instr → Bool
  | .segment len => decide (len < 256)
  | .nop | .gen | .invert | .verify | .permFwd | .permInv | .deriveKey | .encrypt | .decrypt | .expand | .subst => true

/-- How many entries of an expansion map select input bit `i`. -/
def selections (e : ExpMap) (i : Fin 32) : Nat := (List.finRange 48).countP fun j => e j = i

/-- The reading of "duplicating 16 input bits" in 00_scope.md R11: every index occurs, and exactly 16 occur twice.
An optional hypothesis: nothing in the model depends on it. -/
def expMapCovers (e : ExpMap) : Bool :=
  (List.finRange 32).all (fun i => decide (selections e i = 1 ∨ selections e i = 2)) &&
    decide ((List.finRange 32).countP (fun i => selections e i = 2) = 16)

end Sys2Proof
end

