-- ==== Sys2Proof/Decode.lean ====
section
/-! DEFINITION. The command word `CMD32`: its decoder (30_encoding.md R70, R72, R74) and, after it, the encoder (R79). -/

namespace Sys2Proof

/-- The command errors (60_exceptions.md R200). `ok` is the code of a command that succeeds. -/
inductive ErrCode where
  | ok
  | illegalOpcode
  | reservedField
  | invalidMessageLength
  | tableNotValid
  | tableNotBijection
  | tableMismatch
  deriving DecidableEq, Repr

/-- `OP`, bits 7:0 (R70). -/
def opField (w : Word) : Nat := (w.extractLsb' 0 8).toNat

/-- `LEN`, bits 15:8, an unsigned count (R70, R71). -/
def lenField (w : Word) : Nat := (w.extractLsb' 8 8).toNat

/-- `RSVD`, bits 31:16 (R70). -/
def rsvdField (w : Word) : Nat := (w.extractLsb' 16 16).toNat

/-- The opcode map (R72). `len` reaches `SEGMENT` only. -/
def commandOf (op len : Nat) : Option Instr :=
  match op with
  | 0x00 => some .nop
  | 0x01 => some .gen
  | 0x02 => some .invert
  | 0x03 => some .verify
  | 0x04 => some .permFwd
  | 0x05 => some .permInv
  | 0x06 => some .deriveKey
  | 0x07 => some (.segment len)
  | 0x08 => some .encrypt
  | 0x09 => some .decrypt
  | 0x0A => some .expand
  | 0x0B => some .subst
  | _ => none

/-- The decoder of R74, total on every word. The opcode is judged first, then `RSVD`, then `LEN` (R202). -/
def decode (w : Word) : Except ErrCode Instr :=
  match commandOf (opField w) (lenField w) with
  | none => .error .illegalOpcode
  | some i =>
    if rsvdField w ≠ 0 then .error .reservedField
    else if opField w ≠ 0x07 ∧ lenField w ≠ 0 then .error .reservedField
    else .ok i

/-- The opcode of a command (R72). -/
def opcodeOf : Instr → Nat
  | .nop => 0x00
  | .gen => 0x01
  | .invert => 0x02
  | .verify => 0x03
  | .permFwd => 0x04
  | .permInv => 0x05
  | .deriveKey => 0x06
  | .segment _ => 0x07
  | .encrypt => 0x08
  | .decrypt => 0x09
  | .expand => 0x0A
  | .subst => 0x0B

/-- The `LEN` a command carries; 0 where it carries none (R73). -/
def lenOf : Instr → Nat
  | .segment len => len
  | .nop | .gen | .invert | .verify | .permFwd | .permInv | .deriveKey | .encrypt | .decrypt | .expand | .subst => 0

/-- The command word: `enc(M, len) = zext_32(len) << 8 | OP(M)` (R79). -/
def encode (i : Instr) : Word := (BitVec.ofNat 32 (lenOf i) <<< 8) ||| BitVec.ofNat 32 (opcodeOf i)

/-- What `decode` reads from a command word whose low `nbits` bits are those of `w`. Every command is one 32-bit
word (R78), so a number that does not fit one is no command word. -/
def decodeTableWord (nbits w : Nat) : Option Instr :=
  if w < 2 ^ 32 then (decode (BitVec.ofNat 32 (w % 2 ^ nbits))).toOption else none

end Sys2Proof
end

