-- ==== Sys2Proof/Machine/State.lean ====
section
/-! DEFINITION. The state of the engine (10_state.md R40) and of its environment, as plain data, and the state after
reset (R38). -/

namespace Sys2Proof.Machine

/-- A fault reason (60_exceptions.md R206). The engine's meanings and the host bus RECORD one in `State.fault` (R207);
`step` answers `Outcome.fault` with the recorded reason from then on, since a faulted state has no further step. -/
inductive Fault where
  /-- A host access of the wrong size, misaligned, or to a reserved offset (R52). Raised by the host bus. Safe: the
  chip's response is unknown, and the model gives the run no further step. -/
  | busError
  /-- A host access other than a read of `STATUS` or `ERRCODE` while `BUSY = 1` (R57). Raised by the host bus. Safe. -/
  | hostProtocol
  /-- A read of a cell nothing has written since reset, by the host bus (20_memory.md R52, check 5) or by a command
  (10_state.md R31, 30_encoding.md R76): the spec's own stop (60_exceptions.md R206, R207). Safe. -/
  | unwrittenRead
  deriving DecidableEq, Repr

/-- Why `exec` gives an instruction no meaning. No arm of this model answers it. -/
inductive Refusal where
  /-- An instruction whose meaning is not written yet, by its mnemonic. Raised by `exec` alone. Safe. -/
  | notModelled (mnemonic : String)
  deriving DecidableEq, Repr

/-- A data or table cell: its contents and the *defined* mark of R31. The mark alone decides whether a read gives the
contents, as R31 says (log entry 2 for what stands behind an unset mark). -/
structure Cell (w : Nat) where
  value : BitVec w
  marked : Bool
  deriving DecidableEq, Repr

/-- One access of a host program, or its polling loop (20_memory.md R52, 30_encoding.md R79, R80). -/
inductive HostOp where
  /-- `MemRead(addr, size)`. -/
  | read (addr size : Nat)
  /-- `MemWrite(addr, size, value)`. -/
  | write (addr size : Nat) (value : Word)
  /-- `wait`: read `STATUS` until bit 0 of the result is 0 (R80). -/
  | wait
  deriving DecidableEq, Repr

/-- Whose turn it is (10_state.md R20), or that the platform's reset input is asserted (70_reset_and_hazards.md R240). -/
inductive Turn where
  | host
  | engine
  | reset
  deriving DecidableEq, Repr

/-- An 8-word register file (R21). -/
abbrev RegFile := Vector (Cell 32) 8

/-- A permutation-table SRAM (R26). -/
abbrev Sram := Vector (Cell 6) 64

/-- The state record of R40, then the model's own fields. -/
structure State where
  /-- `DIN[0..7]`, the data-in file (R22). -/
  din : RegFile
  /-- `DOUT[0..7]`, the data-out file (R23). -/
  dout : RegFile
  /-- `KS[0..7]`, the key segments (R24). -/
  ks : RegFile
  /-- `MS[0..7]`, the message segments (R25). -/
  ms : RegFile
  /-- `PT[0..63]`, the forward table (R26). -/
  pt : Sram
  /-- `PTI[0..63]`, the inverse table (R26). -/
  pti : Sram
  /-- `STATUS.BUSY` (R27). -/
  busy : Bool
  /-- `STATUS.DONE` (R27). -/
  done : Bool
  /-- `STATUS.ERR` (R27). -/
  err : Bool
  /-- `STATUS.TV`, table valid (R27). -/
  tv : Bool
  /-- `ERRCODE.CODE` (R28). -/
  errcode : BitVec 4
  /-- `PEND`, the accepted command word (R30). -/
  pend : Option Word
  /-- `FAULT`, the fault record (R32). -/
  fault : Option Fault
  /-- The model's own: how many tables `GEN` has drawn (log entry 5). -/
  draws : Nat
  /-- The environment's: what the host has still to do, in its program order (R39, R64; log entry 7). -/
  program : List HostOp
  /-- The environment's: which agent takes the next turns (R20, R76; log entry 8). -/
  schedule : List Turn
  /-- The environment's: what the host's reads returned, newest first (R53; log entry 12). -/
  readLog : List Word
  deriving DecidableEq, Repr

/-- A cell after reset: not defined (R31, R38). The contents behind the missing mark are log entry 2. -/
def Cell.atReset (w : Nat) : Cell w := { value := 0#w, marked := false }

/-- The machine right after reset (R38, R240), with nothing for the host to do. -/
def State.reset : State where
  din := Vector.replicate 8 (Cell.atReset 32)
  dout := Vector.replicate 8 (Cell.atReset 32)
  ks := Vector.replicate 8 (Cell.atReset 32)
  ms := Vector.replicate 8 (Cell.atReset 32)
  pt := Vector.replicate 64 (Cell.atReset 6)
  pti := Vector.replicate 64 (Cell.atReset 6)
  busy := false
  done := false
  err := false
  tv := false
  errcode := 0#4
  pend := none
  fault := none
  draws := 0
  program := []
  schedule := []
  readLog := []

end Sys2Proof.Machine
end

