-- ==== Sys2Proof/Machine/BitOrder.lean ====
section
/-! DEFINITION. The bit-order mux: sequence order (00_scope.md R14), concatenation and halves of blocks (R15), and the
byte packing of 32-byte messages (20_memory.md R58, 40_datapath.md R100, R101). -/

namespace Sys2Proof.Machine

/-- `v⟨i⟩`, element `i` of the sequence `v`: bit `n-1-i` (R14). -/
def seqBit {n : Nat} (v : BitVec n) (i : Nat) : Bool := v.getMsbD i

/-- The word whose sequence elements are `f 0, f 1, …`, the first most significant (R14). -/
def ofSeq : (n : Nat) → (Fin n → Bool) → BitVec n
  | 0, _ => 0#0
  | n + 1, f => BitVec.concat (ofSeq n fun i => f i.castSucc) (f (Fin.last n))

/-- The first half of a block, `Y[63:32]`. -/
def firstHalf (y : Block) : Word := y.extractLsb' 32 32

/-- The second half of a block, `Y[31:0]`. -/
def secondHalf (y : Block) : Word := y.extractLsb' 0 32

/-- Index `2b` of lane or block `b`. -/
def evenIdx (b : Fin 4) : Fin 8 := ⟨2 * b.val, by omega⟩

/-- Index `2b+1` of lane or block `b`. -/
def oddIdx (b : Fin 4) : Fin 8 := ⟨2 * b.val + 1, by omega⟩

/-- The lane or block that holds word `j`. -/
def laneOf (j : Fin 8) : Fin 4 := ⟨j.val / 2, by omega⟩

/-- The eight words of four blocks, in block order, first half first (R108). -/
def splitBlocks (y : Fin 4 → Block) : Segments := fun j =>
  if j.val % 2 = 0 then firstHalf (y (laneOf j)) else secondHalf (y (laneOf j))

/-- Byte `k` of a 32-byte message goes to `W[k div 4][31-8(k mod 4) : 24-8(k mod 4)]` (R58, R101). -/
def packBytes (m : Fin 32 → BitVec 8) : Segments := fun j =>
  m ⟨4 * j.val, by omega⟩ ++ m ⟨4 * j.val + 1, by omega⟩ ++ m ⟨4 * j.val + 2, by omega⟩ ++ m ⟨4 * j.val + 3, by omega⟩

/-- The 32 bytes of eight words, by the same packing (R58, R101). -/
def unpackBytes (w : Segments) : Fin 32 → BitVec 8 := fun k =>
  (w ⟨k.val / 4, by omega⟩).extractLsb' (24 - 8 * (k.val % 4)) 8

/-- Element `i` of the 256-bit sequence held in eight words: `W[i div 32]⟨i mod 32⟩` (R101). -/
def messageBit (w : Segments) (i : Fin 256) : Bool := seqBit (w ⟨i.val / 32, by omega⟩) (i.val % 32)

/-- A table entry as a position (R9). -/
def entryIndex (v : Entry) : Fin 64 := ⟨v.toNat, v.isLt⟩

/-- A position as a table entry (R9). -/
def indexEntry (i : Fin 64) : Entry := BitVec.ofNat 6 i.val

end Sys2Proof.Machine
end

