-- ==== Sys2Proof/Machine/Datapath.lean ====
section
/-! DEFINITION. The datapath primitives (40_datapath.md): pure functions of words, tables and the two ROMs. -/

namespace Sys2Proof.Machine

/-! ### Permutation tables -/

/-- `apply(x, T)⟨i⟩ = x⟨T[i]⟩` (R102). -/
def applyTable (x : Block) (t : Table) : Block := ofSeq 64 fun i => seqBit x (t i).val

/-- No two entries are equal (R103). -/
abbrev isBijection (t : Table) : Prop := ∀ i j : Fin 64, i ≠ j → t i ≠ t j

/-- `U[T[i]] = i` for every position (R105). -/
abbrev mutualInverse (t u : Table) : Prop := ∀ i : Fin 64, u (t i) = i

/-- What is defined of a table: an entry nothing has written is `none` (10_state.md R40). -/
abbrev KnownTable := Fin 64 → Option (Fin 64)

/-- Some position of a table has the property. -/
def somePos (p : Fin 64 → Bool) : Bool := (List.finRange 64).any p

/-- Two defined entries are equal: the table fails R103 whatever its undefined entries hold (log entry 11). -/
def repeats (t : KnownTable) : Bool := somePos fun i => (t i).isSome && somePos fun j => decide (i ≠ j) && decide (t i = t j)

/-- A defined entry `T[i]` leads to a defined entry `U[T[i]]` that is not `i` (R105). -/
def leadsAstray (t u : KnownTable) : Bool :=
  somePos fun i =>
    match t i with
    | none => false
    | some k => (u k).isSome && decide (u k ≠ some i)

/-- The defined entries show that the tables are no mutual inverses, whatever the undefined entries hold: one of the two
is no bijection, or a defined entry of one contradicts the other (R105; log entry 11). -/
def mismatched (t u : KnownTable) : Bool := repeats t || repeats u || leadsAstray t u || leadsAstray u t

/-- The positional inverse of a bijection: entry `j` is the position whose entry is `j` (R104). What it gives for a
table that is no bijection reaches nothing: `INVERT` refuses one (R132) and `GEN` draws none (R131). -/
def inverseOf (t : Table) : Table := fun j => ((List.finRange 64).find? fun i => t i = j).getD 0

/-! ### Marshalling -/

/-- The first segment of block `b` (R107). -/
def pairA : Fin 4 → Fin 8 := ![0, 1, 4, 5]

/-- The second segment of block `b` (R107). -/
def pairC : Fin 4 → Fin 8 := ![2, 3, 6, 7]

/-- The pairing mux: `B_b = W[A[b]] ‖ W[C[b]]` (R107). -/
def pairingBlock (w : Segments) (b : Fin 4) : Block := w (pairA b) ++ w (pairC b)

/-- The consecutive pair `W[2b] ‖ W[2b+1]` (R134). -/
def consecutiveBlock (w : Segments) (b : Fin 4) : Block := w (evenIdx b) ++ w (oddIdx b)

/-- Pair, permute, split (R108). -/
def marshal (w : Segments) (t : Table) : Segments := splitBlocks fun b => applyTable (pairingBlock w b) t

/-- Permute four consecutive blocks (R134, R135). -/
def permuteBlocks (w : Segments) (t : Table) : Segments := splitBlocks fun b => applyTable (consecutiveBlock w b) t

/-! ### Round function -/

/-- The expander: `E(r)⟨j⟩ = r⟨EXP[j]⟩` (R109). -/
def expander (e : ExpMap) (r : Word) : Expanded := ofSeq 48 fun j => seqBit r (e j).val

/-- `bit_k` of chunk `c`: element `6c + k` (R110). -/
def chunkBit (x : Expanded) (c : Fin 8) (k : Nat) : Bool := seqBit x (6 * c.val + k)

/-- `row = 2*bit_0 + bit_5` (R110). -/
def sboxRow (x : Expanded) (c : Fin 8) : Fin 4 :=
  ⟨2 * (chunkBit x c 0).toNat + (chunkBit x c 5).toNat, by
    have := Bool.toNat_lt (chunkBit x c 0); have := Bool.toNat_lt (chunkBit x c 5); omega⟩

/-- `col = 8*bit_1 + 4*bit_2 + 2*bit_3 + bit_4` (R110). -/
def sboxCol (x : Expanded) (c : Fin 8) : Fin 16 :=
  ⟨8 * (chunkBit x c 1).toNat + 4 * (chunkBit x c 2).toNat + 2 * (chunkBit x c 3).toNat + (chunkBit x c 4).toNat, by
    have := Bool.toNat_lt (chunkBit x c 1); have := Bool.toNat_lt (chunkBit x c 2)
    have := Bool.toNat_lt (chunkBit x c 3); have := Bool.toNat_lt (chunkBit x c 4); omega⟩

/-- The S-box array: nibble `c` of the result, in chunk order, is `SBOX[c][row][col]` (R110). -/
def substitute (sbox : SboxRom) (x : Expanded) : Word :=
  ofSeq 32 fun i =>
    let c : Fin 8 := ⟨i.val / 4, by omega⟩
    seqBit (sbox c (sboxRow x c) (sboxCol x c)) (i.val % 4)

/-- `F(r, k) = S(E(r) ^ E(k))` (R112). -/
def roundF (e : ExpMap) (sbox : SboxRom) (r k : Word) : Word := substitute sbox (expander e r ^^^ expander e k)

/-! ### Feistel pairs -/

/-- The encrypt pair with its swapper: `right ‖ (left ^ F(right, key))` (R114), for any round function. -/
def encPair (f : Word → Word → Word) (left right key : Word) : Block := right ++ (left ^^^ f right key)

/-- The decrypt pair: `(L' ^ F(R, key)) ‖ R` (R115), for any round function. -/
def decPair (f : Word → Word → Word) (r l' key : Word) : Block := (l' ^^^ f r key) ++ r

/-- `REORD` (R116). -/
def reordIdx : Fin 8 → Fin 8 := ![0, 2, 1, 3, 4, 6, 5, 7]

/-- The reorder mux: `reorder(U)[j] = U[REORD[j]]` (R116). -/
def reorder (u : Segments) : Segments := fun j => u (reordIdx j)

/-- The four lanes of `ENCRYPT` (R119, R170). `keys i` is what the key-segment selector gives lane `i` (R118). -/
def encryptLanes (f : Word → Word → Word) (msg : Segments) (keys : Fin 4 → Word) : Segments :=
  splitBlocks fun i => encPair f (msg (evenIdx i)) (msg (oddIdx i)) (keys i)

/-- The four lanes of `DECRYPT`, the inverse permutation and the reorder mux (R119, R171). -/
def decryptLanes (f : Word → Word → Word) (cipher : Segments) (keys : Fin 4 → Word) (u : Table) : Segments :=
  reorder (splitBlocks fun i => applyTable (decPair f (cipher (evenIdx i)) (cipher (oddIdx i)) (keys i)) u)

/-- The input of `SUBST`: `DIN[0][15:0] ‖ DIN[1]` (R161). -/
def substInput (w0 w1 : Word) : Expanded := w0.extractLsb' 0 16 ++ w1

/-- The first result word of `EXPAND`: `zext_32(e[47:32])` (R160). -/
def expandHigh (x : Expanded) : Word := (x.extractLsb' 32 16).setWidth 32

/-- The second result word of `EXPAND`: `e[31:0]` (R160). -/
def expandLow (x : Expanded) : Word := x.extractLsb' 0 32

end Sys2Proof.Machine
end

