-- ==== Sys2Proof/Machine/Flags.lean ====
section
/-! DEFINITION. The flags: the error codes' numbers (60_exceptions.md R200) and the words `STATUS` and `ERRCODE`
(10_state.md R27, R28, 20_memory.md R53). The engine has no other flag (R36). -/

namespace Sys2Proof.Machine

/-- The number of an error code (R200). -/
def codeOf : ErrCode → BitVec 4
  | .ok => 0#4
  | .illegalOpcode => 1#4
  | .reservedField => 2#4
  | .invalidMessageLength => 3#4
  | .tableNotValid => 4#4
  | .tableNotBijection => 5#4
  | .tableMismatch => 6#4

/-- `STATUS.ERR` is `code ≠ 0` (R27, R203). -/
def errFlag (e : ErrCode) : Bool := codeOf e != 0#4

/-- `STATUS` as the host reads it: `zext_32(TV ‖ ERR ‖ DONE ‖ BUSY)` (R53). -/
def statusWord (s : State) : Word :=
  (BitVec.ofBool s.tv ++ BitVec.ofBool s.err ++ BitVec.ofBool s.done ++ BitVec.ofBool s.busy).setWidth 32

/-- `ERRCODE` as the host reads it: `zext_32(CODE)` (R53). -/
def errcodeWord (s : State) : Word := s.errcode.setWidth 32

end Sys2Proof.Machine
end

