-- ==== Sys2Proof/Machine/Ops.lean ====
section
/-! DEFINITION. The shared operations on the state: cells and files, accepting a command, ending it (which is all this
hardware has of taking an exception, 60_exceptions.md R208), recording a fault, and reset. -/

namespace Sys2Proof.Machine

/-! ### Cells and files -/

/-- What a read of a cell gives: its contents where it is defined, nothing where it is not (R31). -/
def Cell.read {w : Nat} (c : Cell w) : Option (BitVec w) := if c.marked then some c.value else none

/-- A cell that has just been written: defined, with the value written (R31). -/
def Cell.written {w : Nat} (v : BitVec w) : Cell w := { value := v, marked := true }

/-- The vector of the values of `f`. -/
def tabulate {α : Type} (n : Nat) (f : Fin n → α) : Vector α n := ⟨⟨List.ofFn f⟩, by simp⟩

/-- Every cell written, cell `j` with `f j`. -/
def storeAll {n w : Nat} (f : Fin n → BitVec w) : Vector (Cell w) n := tabulate n fun j => Cell.written (f j)

/-- One cell of a vector written. -/
def storeAt {n w : Nat} (v : Vector (Cell w) n) (j : Fin n) (x : BitVec w) : Vector (Cell w) n :=
  v.set j.val (Cell.written x) j.isLt

/-! ### Commands: accept, completion, errors, faults -/

/-- Accepting command word `w` (30_encoding.md R75). It clears what the last command reported, so it is also all there
is of a return from an error (60_exceptions.md R209). -/
def accept (w : Word) (s : State) : State :=
  { s with pend := some w, busy := true, done := false, err := false, errcode := 0#4 }

/-- `complete(code)` (60_exceptions.md R203). -/
def complete (e : ErrCode) (s : State) : State :=
  { s with errcode := codeOf e, err := errFlag e, done := true, busy := false, pend := none }

/-- `raise Fault(r)`: the fault is recorded and nothing else changes (60_exceptions.md R207; log entry 1). -/
def recordFault (r : Fault) (s : State) : State := { s with fault := some r }

/-- A command that ends without an error, after its writes. -/
def finish (s : State) : Host.Outcome State Fault Refusal := .next (complete .ok s)

/-- `raise CmdError(code)`: TAKING AN EXCEPTION on this hardware. The command completes with the code and none of its
writes takes effect (60_exceptions.md R203, R204, R208). -/
def cmdError (e : ErrCode) (s : State) : Host.Outcome State Fault Refusal := .next (complete e s)

/-- A command that reads a cell nothing has written: `raise Fault(UnwrittenRead)` (10_state.md R31, 30_encoding.md R76,
60_exceptions.md R206). It does not complete (R207). -/
def readFault (s : State) : Host.Outcome State Fault Refusal := .next (recordFault .unwrittenRead s)

/-! ### Reset -/

/-- The platform's reset input: every piece of the engine's state takes its reset value (70_reset_and_hazards.md R240,
R241). The environment keeps what it has still to do (log entry 9). -/
def resetEngine (s : State) : State :=
  { State.reset with draws := s.draws, program := s.program, schedule := s.schedule, readLog := s.readLog }

end Sys2Proof.Machine
end

