-- ==== Sys2Proof/Machine/Operands.lean ====
section
/-! DEFINITION. The operand forms: the fixed words and tables a command reads (30_encoding.md R71), all of them checked
before anything is written (41_control_table.md, template), and the table gate. -/

namespace Sys2Proof.Machine

/-- The values of a vector of cells, if every one of them is defined (10_state.md R31). -/
def readAll {n w : Nat} (v : Vector (Cell w) n) : Option (Fin n → BitVec w) :=
  if ∀ j : Fin n, (v.get j).marked = true then some fun j => (v.get j).value else none

/-- A table, if every entry is defined. -/
def readTable (v : Sram) : Option Table := (readAll v).map fun f i => entryIndex (f i)

/-- What is defined of a table. -/
def known (v : Sram) : KnownTable := fun i => (v.get i).read.map entryIndex

/-- The key-segment selector: lane `i` reads `KS[2i+1]`; the even words are not read (40_datapath.md R118). -/
def readKeys (v : RegFile) : Option (Fin 4 → Word) :=
  if ∀ i : Fin 4, (v.get (oddIdx i)).marked = true then some fun i => (v.get (oddIdx i)).value else none

/-- Two operands, if both are defined. -/
def both {α β : Type} (a : Option α) (b : Option β) : Option (α × β) :=
  a.bind fun x => b.map fun y => (x, y)

/-- A table stored entry by entry. -/
def storeTable (t : Table) : Sram := storeAll fun i => indexEntry (t i)

/-- Run `k` on the operands if they are all defined, else `raise Fault(UnwrittenRead)` (R31, R76). -/
def withOperands {α : Type} (o : Option α) (s : State) (k : α → Host.Outcome State Fault Refusal) :
    Host.Outcome State Fault Refusal :=
  match o with
  | some a => k a
  | none => readFault s

/-- The table gate (41_control_table.md R136). -/
def requireTv (s : State) (k : Host.Outcome State Fault Refusal) : Host.Outcome State Fault Refusal :=
  if s.tv = true then k else cmdError .tableNotValid s

/-- The engine's round function: the expander and the S-box array with the ROM contents (10_state.md R33, R34). -/
def engineF (r k : Word) : Word := roundF Config.expMap Config.sboxRom r k

end Sys2Proof.Machine
end

