-- ==== Sys2Proof/Machine/Control.lean ====
section
/-! DEFINITION. The control command (41_control_table.md section 2). -/

namespace Sys2Proof.Machine

/-- `NOP` (R130). -/
def execNop (s : State) : Host.Outcome State Fault Refusal := finish s

end Sys2Proof.Machine
end

