-- ==== Sys2Proof/Machine/Feistel.lean ====
section
/-! DEFINITION. Feistel encryption and decryption (44_feistel.md). -/

namespace Sys2Proof.Machine

/-- `ENCRYPT` (R170). It reads no table, so there is no gate. -/
def execEncrypt (s : State) : Host.Outcome State Fault Refusal :=
  withOperands (both (readAll s.ms) (readKeys s.ks)) s fun p =>
    finish { s with dout := storeAll (encryptLanes engineF p.1 p.2) }

/-- `DECRYPT` (R171). -/
def execDecrypt (s : State) : Host.Outcome State Fault Refusal :=
  requireTv s <| withOperands (both (readAll s.din) (both (readKeys s.ks) (readTable s.pti))) s fun p =>
    finish { s with dout := storeAll (decryptLanes engineF p.1 p.2.1 p.2.2) }

end Sys2Proof.Machine
end

