-- ==== Sys2Proof/Machine/Marshal.lean ====
section
/-! DEFINITION. Key derivation and message segmentation (42_marshal.md). -/

namespace Sys2Proof.Machine

/-- `DERIVE_KEY` (R150). -/
def execDeriveKey (s : State) : Host.Outcome State Fault Refusal :=
  requireTv s <| withOperands (both (readAll s.din) (readTable s.pt)) s fun p =>
    finish { s with ks := storeAll (marshal p.1 p.2) }

/-- `SEGMENT` (R151): the length is judged before the table (60_exceptions.md R202). -/
def execSegment (len : Nat) (s : State) : Host.Outcome State Fault Refusal :=
  if len ≠ 32 then cmdError .invalidMessageLength s
  else requireTv s <| withOperands (both (readAll s.din) (readTable s.pt)) s fun p =>
    finish { s with ms := storeAll (marshal p.1 p.2) }

end Sys2Proof.Machine
end

