-- ==== Sys2Proof/Machine/RoundDiag.lean ====
section
/-! DEFINITION. The round-function diagnostic commands (43_round_diag.md). Neither checks TV. -/

namespace Sys2Proof.Machine

/-- `EXPAND` (R160): `DOUT[0..1]` are written, the other words keep their values. -/
def execExpand (s : State) : Host.Outcome State Fault Refusal :=
  withOperands (s.din.get 0).read s fun w =>
    finish { s with
      dout := storeAt (storeAt s.dout 0 (expandHigh (expander Config.expMap w))) 1
        (expandLow (expander Config.expMap w)) }

/-- `SUBST` (R161): `DOUT[0]` is written, the other words keep their values. -/
def execSubst (s : State) : Host.Outcome State Fault Refusal :=
  withOperands (both (s.din.get 0).read (s.din.get 1).read) s fun p =>
    finish { s with dout := storeAt s.dout 0 (substitute Config.sboxRom (substInput p.1 p.2)) }

end Sys2Proof.Machine
end

