-- ==== Sys2Proof/Machine/Table.lean ====
section
/-! DEFINITION. The permutation-table commands (41_control_table.md sections 3 to 6). -/

namespace Sys2Proof.Machine

/-- `GEN` (R131): the draw goes to `PT`, its inverse to `PTI`, and the next `GEN` draws afresh (log entry 5). -/
def execGen (s : State) : Host.Outcome State Fault Refusal :=
  finish { s with
    pt := storeTable fun i => Config.genDraw s.draws i
    pti := storeTable (inverseOf fun i => Config.genDraw s.draws i)
    tv := true
    draws := s.draws + 1 }

/-- `INVERT` (R132): the bijection check first, on what is defined of `PT`, then the read of all of it (60_exceptions.md
R202; log entry 11). -/
def execInvert (s : State) : Host.Outcome State Fault Refusal :=
  if repeats (known s.pt) then cmdError .tableNotBijection s
  else withOperands (readTable s.pt) s fun t => finish { s with pti := storeTable (inverseOf t), tv := true }

/-- `VERIFY` (R133): the mismatch check first, on what is defined of both tables, then the read of all of them
(60_exceptions.md R202; log entry 11). -/
def execVerify (s : State) : Host.Outcome State Fault Refusal :=
  if mismatched (known s.pt) (known s.pti) then cmdError .tableMismatch s
  else withOperands (both (readTable s.pt) (readTable s.pti)) s fun _ => finish { s with tv := true }

/-- `PERM_FWD` (R134). -/
def execPermFwd (s : State) : Host.Outcome State Fault Refusal :=
  requireTv s <| withOperands (both (readAll s.din) (readTable s.pt)) s fun p =>
    finish { s with dout := storeAll (permuteBlocks p.1 p.2) }

/-- `PERM_INV` (R135). -/
def execPermInv (s : State) : Host.Outcome State Fault Refusal :=
  requireTv s <| withOperands (both (readAll s.din) (readTable s.pti)) s fun p =>
    finish { s with dout := storeAll (permuteBlocks p.1 p.2) }

end Sys2Proof.Machine
end

