-- ==== Sys2Proof/Machine/Dispatch.lean ====
section
/-! DEFINITION. The meaning of each command (30_encoding.md R76, execute). -/

namespace Sys2Proof.Machine

/-- What the engine does for a decoded command: one arm per command, each one call of its meaning. -/
def exec (i : Instr) (s : State) : Host.Outcome State Fault Refusal :=
  match i with
  | .nop => Sys2Proof.Machine.execNop s
  | .gen => Sys2Proof.Machine.execGen s
  | .invert => Sys2Proof.Machine.execInvert s
  | .verify => Sys2Proof.Machine.execVerify s
  | .permFwd => Sys2Proof.Machine.execPermFwd s
  | .permInv => Sys2Proof.Machine.execPermInv s
  | .deriveKey => Sys2Proof.Machine.execDeriveKey s
  | .segment len => Sys2Proof.Machine.execSegment len s
  | .encrypt => Sys2Proof.Machine.execEncrypt s
  | .decrypt => Sys2Proof.Machine.execDecrypt s
  | .expand => Sys2Proof.Machine.execExpand s
  | .subst => Sys2Proof.Machine.execSubst s

end Sys2Proof.Machine
end

