-- ==== Sys2Proof/Machine/HostBus.lean ====
section
/-! DEFINITION. The host register window: its map, its access checks, reads and writes (20_memory.md), and the host
agent's step. -/

namespace Sys2Proof.Machine

/-! ### The register map -/

/-- A register of the window (R51). -/
inductive Reg where
  | cmd
  | status
  | errcode
  | din (j : Fin 8)
  | dout (j : Fin 8)
  | ks (j : Fin 8)
  | ms (j : Fin 8)
  | pt (i : Fin 64)
  | pti (i : Fin 64)
  deriving DecidableEq, Repr

/-- The offset of a register (R51). -/
def regOffset : Reg → Nat
  | .cmd => 0x000
  | .status => 0x004
  | .errcode => 0x008
  | .din j => 0x040 + 4 * j.val
  | .dout j => 0x060 + 4 * j.val
  | .ks j => 0x080 + 4 * j.val
  | .ms j => 0x0A0 + 4 * j.val
  | .pt i => 0x100 + 4 * i.val
  | .pti i => 0x200 + 4 * i.val

/-- The register at a word-aligned offset; nothing at a reserved one (R51). -/
def regAt (off : Nat) : Option Reg :=
  if off % 4 ≠ 0 then none
  else if off = 0x000 then some .cmd
  else if off = 0x004 then some .status
  else if off = 0x008 then some .errcode
  else if off < 0x040 then none
  else if off < 0x060 then some (.din (Fin.ofNat 8 ((off - 0x040) / 4)))
  else if off < 0x080 then some (.dout (Fin.ofNat 8 ((off - 0x060) / 4)))
  else if off < 0x0A0 then some (.ks (Fin.ofNat 8 ((off - 0x080) / 4)))
  else if off < 0x0C0 then some (.ms (Fin.ofNat 8 ((off - 0x0A0) / 4)))
  else if off < 0x100 then none
  else if off < 0x200 then some (.pt (Fin.ofNat 64 ((off - 0x100) / 4)))
  else if off < 0x300 then some (.pti (Fin.ofNat 64 ((off - 0x200) / 4)))
  else none

/-- The bus address of a register: `BASE + off(NAME)` (R50, 30_encoding.md R79). -/
def regAddress (r : Reg) : Nat := Config.base + regOffset r

/-- The offset of a bus address inside the 4096-byte window (R50). -/
def windowOffset (addr : Nat) : Option Nat :=
  if Config.base ≤ addr ∧ addr < Config.base + 4096 then some (addr - Config.base) else none

/-! ### Access checks -/

/-- Whether an access is a read of `STATUS` or `ERRCODE`, all the host may do while the engine is busy (R57). -/
def busyAllows (isWrite : Bool) (r : Reg) : Bool := !isWrite && (r == .status || r == .errcode)

/-- Checks 1 to 4 of R52, in its order: size, alignment, mapping, busy. -/
def checkOffset (s : State) (isWrite : Bool) (off size : Nat) : Except Fault Reg :=
  if size ≠ 4 then .error .busError
  else if off % 4 ≠ 0 then .error .busError
  else match regAt off with
    | none => .error .busError
    | some r => if s.busy && !busyAllows isWrite r then .error .hostProtocol else .ok r

/-! ### Reads and writes -/

/-- What a register reads as, where its cell is defined (R53). -/
def readReg (s : State) : Reg → Option Word
  | .cmd => some 0#32
  | .status => some (statusWord s)
  | .errcode => some (errcodeWord s)
  | .din j => (s.din.get j).read
  | .dout j => (s.dout.get j).read
  | .ks j => (s.ks.get j).read
  | .ms j => (s.ms.get j).read
  | .pt i => (s.pt.get i).read.map fun v => v.setWidth 32
  | .pti i => (s.pti.get i).read.map fun v => v.setWidth 32

/-- What a write of `v` to a register does: `CMD` issues a command (30_encoding.md R75), the data words are stored
(R54), the read-only registers ignore it (R55), and a table entry takes `v[5:0]` and clears TV (R56). -/
def writeReg (v : Word) (s : State) : Reg → State
  | .cmd => accept v s
  | .status => s
  | .errcode => s
  | .din j => { s with din := storeAt s.din j v }
  | .dout _ => s
  | .ks j => { s with ks := storeAt s.ks j v }
  | .ms j => { s with ms := storeAt s.ms j v }
  | .pt i => { s with pt := storeAt s.pt i (v.extractLsb' 0 6), tv := false }
  | .pti i => { s with pti := storeAt s.pti i (v.extractLsb' 0 6), tv := false }

/-- A read at an offset of the window: the five checks of R52, the last of which is `raise Fault(UnwrittenRead)` for a cell
that is not defined (10_state.md R31), then the value of R53. -/
def readOffset (s : State) (off size : Nat) : Except Fault Word :=
  match checkOffset s false off size with
  | .error r => .error r
  | .ok reg =>
    match readReg s reg with
    | none => .error .unwrittenRead
    | some v => .ok v

/-- A write at an offset of the window: the four checks of R52, then the effect. -/
def writeOffset (s : State) (off size : Nat) (v : Word) : Except Fault State :=
  match checkOffset s true off size with
  | .error r => .error r
  | .ok reg => .ok (writeReg v s reg)

/-- `MemRead(addr, size)`. No register stands at an address outside the window (R52; log entry 10). -/
def hostRead (s : State) (addr size : Nat) : Except Fault Word :=
  match windowOffset addr with
  | none => .error .busError
  | some off => readOffset s off size

/-- `MemWrite(addr, size, v)` (R52; log entry 10). -/
def hostWrite (s : State) (addr size : Nat) (v : Word) : Except Fault State :=
  match windowOffset addr with
  | none => .error .busError
  | some off => writeOffset s off size v

/-! ### The host agent -/

/-- One access of the host. A read reports its value; a faulting access records its fault and changes nothing else of
the engine (R52, 60_exceptions.md R207). `wait` repeats itself while `STATUS.BUSY` reads 1 (30_encoding.md R80). -/
def hostAccess (op : HostOp) (s : State) : State :=
  match op with
  | .read addr size =>
    match hostRead s addr size with
    | .ok v => { s with readLog := v :: s.readLog }
    | .error r => recordFault r s
  | .write addr size v =>
    match hostWrite s addr size v with
    | .ok t => t
    | .error r => recordFault r s
  | .wait =>
    match hostRead s (regAddress .status) 4 with
    | .ok v => if v.getLsbD 0 then { s with program := .wait :: s.program } else s
    | .error r => recordFault r s

/-- The host's step: the next access of its program (R64). -/
def hostStep (s : State) : State :=
  match s.program with
  | [] => s
  | op :: rest => hostAccess op { s with program := rest }

end Sys2Proof.Machine
end

