-- ==== Sys2Proof/Machine/Engine.lean ====
section
/-! DEFINITION. The engine agent's step (30_encoding.md R76) and the choice of which agent moves (10_state.md R20). -/

namespace Sys2Proof.Machine

/-- Which agent moves. -/
inductive Mover where
  | host
  | engine
  | idle
  deriving DecidableEq, Repr

/-- The engine, if it has a step: exactly when a command is pending (R76). -/
def engineReady (s : State) : Bool := s.pend.isSome

/-- The host, if its program goes on. -/
def hostReady (s : State) : Bool := !s.program.isEmpty

/-- Whether the platform's reset input comes next (70_reset_and_hazards.md R240). -/
def resetDue (s : State) : Bool := s.schedule.head? == some .reset

/-- Who moves: the agent whose turn the schedule names, or the other one where that agent has no step. With the
schedule used up the engine goes first, which is R76's fairness (log entry 8). -/
def mover (s : State) : Mover :=
  if s.schedule.head? = some .host then
    if hostReady s then .host else if engineReady s then .engine else .idle
  else
    if engineReady s then .engine else if hostReady s then .host else .idle

/-- The turn is used. -/
def popTurn (s : State) : State := { s with schedule := s.schedule.tail }

/-- The engine step of R76: the pending word is decoded, and its command completes with the decoder's error or is
executed. -/
def engineStep (s : State) : Host.Outcome State Fault Refusal :=
  match s.pend with
  | none => .next s
  | some w =>
    match decode w with
    | .error e => cmdError e s
    | .ok i => exec i s

/-- The move of the agent whose turn it is. With nothing to do for either, the state stays as it is
(60_exceptions.md R218; log entry 13). -/
def agentStep (s : State) : Host.Outcome State Fault Refusal :=
  match mover s with
  | .host => .next (hostStep (popTurn s))
  | .engine => engineStep (popTurn s)
  | .idle => .next (popTurn s)

/-- Placing a command word: `w` as accepted (R75), no fault on record, and the next turn the engine's. -/
def placeCommand (w : Word) (s : State) : State :=
  { accept w s with fault := none, schedule := .engine :: s.schedule }

end Sys2Proof.Machine
end

