-- ==== Sys2Proof/Machine/Step.lean ====
section
/-! DEFINITION. One step of the machine: the reset input, the faulted state, then the agent whose turn it is. -/

namespace Sys2Proof.Machine

/-- One step. A state with a recorded fault has no step of any agent: it answers the fault, until the reset input
clears it (60_exceptions.md R207; log entry 1). -/
def step (s : State) : Host.Outcome State Fault Refusal :=
  if resetDue s then .next (resetEngine (popTurn s))
  else match s.fault with
    | some r => .fault r
    | none => agentStep s

/-- `s` with the command word of the low `nbits` bits of `w` pending and the engine next, so that the very next step
decodes and runs it (log entry 15). -/
def State.withFetchWord (s : State) (nbits w : Nat) : State :=
  placeCommand (BitVec.ofNat 32 (w % 2 ^ nbits)) s

end Sys2Proof.Machine
end

