-- ==== Sys2Proof/Machine/HostProgram.lean ====
section
/-! DEFINITION. The host-program forms and pseudo-instructions of 30_encoding.md R79 and R80, as lists of accesses. -/

namespace Sys2Proof.Machine

/-- `sw NAME, v` (R79). -/
def sw (r : Reg) (v : Word) : List HostOp := [.write (regAddress r) 4 v]

/-- `lw NAME` (R79). -/
def lw (r : Reg) : List HostOp := [.read (regAddress r) 4]

/-- `cmd MNEMONIC` and `cmd SEGMENT, len` (R79). -/
def cmd (i : Instr) : List HostOp := sw .cmd (encode i)

/-- `run M [, len]`: `cmd` then `wait` (R80). -/
def run (i : Instr) : List HostOp := cmd i ++ [.wait]

/-- `ldw X, v0, ..., v7`, with `x` one of `Reg.din`, `Reg.ks`, `Reg.ms` (R80). -/
def ldw (x : Fin 8 → Reg) (v : Segments) : List HostOp := (List.finRange 8).flatMap fun j => sw (x j) (v j)

/-- `ldtab T, t0, ..., t63`, with `t` one of `Reg.pt`, `Reg.pti` (R80). A value is any word, as `sw` takes it; the
register takes its low six bits (20_memory.md R56). -/
def ldtab (t : Fin 64 → Reg) (v : Fin 64 → Word) : List HostOp := (List.finRange 64).flatMap fun i => sw (t i) (v i)

/-- The words of a table, for `ldtab T, X[0..63]` (95_test_vectors.md section 4). -/
def tableWords (t : Table) : Fin 64 → Word := fun i => BitVec.ofNat 32 (t i).val

/-- `rdw X`, with `x` one of `Reg.din`, `Reg.dout`, `Reg.ks`, `Reg.ms` (R80). -/
def rdw (x : Fin 8 → Reg) : List HostOp := (List.finRange 8).flatMap fun j => lw (x j)

end Sys2Proof.Machine
end

