-- ==== Sys2Proof/Safety.lean ====
section
/-! DEFINITION. The terms claims use: the invariant of reachable states, the end of a run and what is observed of it. -/

namespace Sys2Proof.Machine

/-- A cell nothing has written holds its reset contents, so that equal machines are equal data (log entry 2). -/
def cellCanonical {w : Nat} (c : Cell w) : Prop := c.marked = false → c = Cell.atReset w

/-- Every cell of a file or table is in the canonical form. -/
def allCanonical {n w : Nat} (v : Vector (Cell w) n) : Prop := ∀ j : Fin n, cellCanonical (v.get j)

/-- Every cell is defined. -/
def allMarked {n w : Nat} (v : Vector (Cell w) n) : Prop := ∀ j : Fin n, (v.get j).marked = true

/-- The words `KS[1]`, `KS[3]`, `KS[5]`, `KS[7]` are defined. -/
def oddMarked (v : RegFile) : Prop := ∀ l : Fin 4, (v.get (oddIdx l)).marked = true

/-- The words of a register file, defined or not. -/
def wordsOf (v : RegFile) : Segments := fun j => (v.get j).value

/-- The position in entry `i` of a table SRAM, defined or not. -/
def tableOf (v : Sram) : Table := fun i => entryIndex (v.get i).value

/-- The table-valid invariant (10_state.md R37): both tables are defined and mutual inverses. -/
def TablesValid (s : State) : Prop :=
  allMarked s.pt ∧ allMarked s.pti ∧ mutualInverse (tableOf s.pt) (tableOf s.pti)

/-- What holds in every reachable state. -/
structure Inv (s : State) : Prop where
  /-- `PEND ≠ none` exactly when `BUSY = 1` (R30). -/
  pendBusy : s.pend.isSome = s.busy
  /-- `ERR` equals `CODE ≠ 0` (R27). -/
  errCode : s.err = (s.errcode != 0#4)
  /-- Codes 7 to 15 are never produced (60_exceptions.md R200). -/
  codeLegal : s.errcode.toNat ≤ 6
  /-- Accept clears `DONE` and `ERR` (30_encoding.md R75). -/
  busyClear : s.busy = true → s.done = false ∧ s.err = false
  /-- An error is reported by a completed command only (R27). -/
  errDone : s.err = true → s.done = true
  /-- The table-valid invariant (R37). -/
  tables : s.tv = true → TablesValid s
  /-- The canonical form of the cells (log entry 2). -/
  canonical : allCanonical s.din ∧ allCanonical s.dout ∧ allCanonical s.ks ∧ allCanonical s.ms ∧
    allCanonical s.pt ∧ allCanonical s.pti

/-- Two defined entries of a table are equal. -/
def tableRepeats (v : Sram) : Prop :=
  ∃ i j : Fin 64, i ≠ j ∧ (v.get i).marked = true ∧ (v.get j).marked = true ∧ tableOf v i = tableOf v j

/-- A defined entry of a table leads to a defined entry of the other that does not lead back. -/
def tableAstray (v u : Sram) : Prop :=
  ∃ i : Fin 64, (v.get i).marked = true ∧ (u.get (tableOf v i)).marked = true ∧ tableOf u (tableOf v i) ≠ i

/-- The defined entries of two tables show that these are no mutual inverses (log entry 11). -/
def tablesMismatch (v u : Sram) : Prop := tableRepeats v ∨ tableRepeats u ∨ tableAstray v u ∨ tableAstray u v

/-- The command reads a cell that is not defined (the operands of each command's rule, R130 to R171). -/
def readsUndefined (i : Instr) (s : State) : Prop :=
  match i with
  | .nop | .gen => False
  | .invert => ¬ allMarked s.pt
  | .verify => ¬ allMarked s.pt ∨ ¬ allMarked s.pti
  | .permFwd | .deriveKey | .segment _ => ¬ allMarked s.din ∨ ¬ allMarked s.pt
  | .permInv => ¬ allMarked s.din ∨ ¬ allMarked s.pti
  | .encrypt => ¬ allMarked s.ms ∨ ¬ oddMarked s.ks
  | .decrypt => ¬ allMarked s.din ∨ ¬ oddMarked s.ks ∨ ¬ allMarked s.pti
  | .expand => (s.din.get 0).marked = false
  | .subst => (s.din.get 0).marked = false ∨ (s.din.get 1).marked = false

/-- The command passes its error checks (60_exceptions.md R202): the length of `SEGMENT`, the table gate, the bijection
check of `INVERT` and the mismatch check of `VERIFY`. -/
def passesGate (i : Instr) (s : State) : Prop :=
  match i with
  | .nop | .gen | .encrypt | .expand | .subst => True
  | .invert => ¬ tableRepeats s.pt
  | .verify => ¬ tablesMismatch s.pt s.pti
  | .permFwd | .permInv | .deriveKey | .decrypt => s.tv = true
  | .segment len => len = 32 ∧ s.tv = true

/-- The end of a run (70_reset_and_hazards.md R253): the host has made its last access, the engine is not busy, and
nothing has faulted. -/
def Ended (s : State) : Prop := s.program = [] ∧ s.busy = false ∧ s.fault = none

/-- Every register of the window that can be observed: all but `CMD`. -/
def observedRegs : List Reg :=
  [.status, .errcode] ++ (List.finRange 8).map .din ++ (List.finRange 8).map .dout ++ (List.finRange 8).map .ks ++
    (List.finRange 8).map .ms ++ (List.finRange 64).map .pt ++ (List.finRange 64).map .pti

/-- The observation of a run's end (R253): `STATUS`, `ERRCODE` and every defined cell with its offset. -/
def observation (s : State) : List (Nat × Word) :=
  observedRegs.filterMap fun r => (readReg s r).map fun v => (regOffset r, v)

end Sys2Proof.Machine
end

