-- ==== Sys2Proof/Certificates/Slice0/Obligations.lean ====
section
/-! DEFINITION. The statements for the provers. The predicates before them say the spec's rules in words and bits,
without the model's meanings. -/

open Sys2Proof Sys2Proof.Machine

namespace Sys2Proof.Claims

/-! ### The words of the statements -/

/-- `complete(code)` as 60_exceptions.md R203 writes it; nothing else changes. -/
def ends (code : BitVec 4) (s : State) : State :=
  { s with errcode := code, err := decide (code ≠ 0#4), done := true, busy := false, pend := none }

/-- `raise Fault(r)` as R207 writes it; nothing else changes. -/
def faulted (r : Fault) (s : State) : State := { s with fault := some r }

/-- `Y = apply(X, T)` in the word form of R102. -/
def PermutedBy (t : Table) (x y : Block) : Prop := ∀ i : Fin 64, y.getLsbD (63 - i.val) = x.getLsbD (63 - (t i).val)

/-- `X = E(r)` in the word form of R109. -/
def ExpandedTo (e : ExpMap) (r : Word) (x : Expanded) : Prop :=
  ∀ j : Fin 48, x.getLsbD (47 - j.val) = r.getLsbD (31 - (e j).val)

/-- `Y = S(X)` by R110: nibble `c` is the entry at the row of the chunk's outer bits and the column of its inner bits. -/
def SubstitutedTo (sbox : SboxRom) (x : Expanded) (y : Word) : Prop :=
  ∀ (c : Fin 8) (row : Fin 4) (col : Fin 16),
    row.val = 2 * (x.getLsbD (47 - 6 * c.val)).toNat + (x.getLsbD (42 - 6 * c.val)).toNat →
    col.val = 8 * (x.getLsbD (46 - 6 * c.val)).toNat + 4 * (x.getLsbD (45 - 6 * c.val)).toNat +
      2 * (x.getLsbD (44 - 6 * c.val)).toNat + (x.getLsbD (43 - 6 * c.val)).toNat →
    y.extractLsb' (28 - 4 * c.val) 4 = sbox c row col

/-- `f = F(r, k)` with the engine's ROMs: `S(E(r) ^ E(k))` (R112). -/
def RoundValue (r k f : Word) : Prop :=
  ∃ xr xk, ExpandedTo Config.expMap r xr ∧ ExpandedTo Config.expMap k xk ∧
    SubstitutedTo Config.sboxRom (xr ^^^ xk) f

/-- The offsets 20_memory.md R51 lists. -/
def Mapped (off : Nat) : Prop :=
  off % 4 = 0 ∧ (off ≤ 0x008 ∨ (0x040 ≤ off ∧ off < 0x0C0) ∨ (0x100 ≤ off ∧ off < 0x300))

/-- The offset is that of a data or table cell, and the cell is not defined (R31, R51). -/
def CellUndefined (s : State) (off : Nat) : Prop :=
  (∃ j : Fin 8, (off = 0x040 + 4 * j.val ∧ (s.din.get j).marked = false) ∨
    (off = 0x060 + 4 * j.val ∧ (s.dout.get j).marked = false) ∨
    (off = 0x080 + 4 * j.val ∧ (s.ks.get j).marked = false) ∨
    (off = 0x0A0 + 4 * j.val ∧ (s.ms.get j).marked = false)) ∨
  ∃ i : Fin 64, (off = 0x100 + 4 * i.val ∧ (s.pt.get i).marked = false) ∨
    (off = 0x200 + 4 * i.val ∧ (s.pti.get i).marked = false)

/-- The engine moves next, on the pending word `w`. -/
def EngineTurn (s : State) (w : Word) : Prop :=
  s.fault = none ∧ s.pend = some w ∧
    (s.schedule = [] ∨ (∃ r, s.schedule = .engine :: r) ∨ (s.program = [] ∧ ∃ r, s.schedule = .host :: r))

/-- The host moves next, with the access `op`, and goes on with `rest`. -/
def HostTurn (s : State) (op : HostOp) (rest : List HostOp) : Prop :=
  s.fault = none ∧ s.program = op :: rest ∧
    ((∃ r, s.schedule = .host :: r) ∨ (s.pend = none ∧ (s.schedule = [] ∨ ∃ r, s.schedule = .engine :: r)))

/-- The turn the step uses is gone. -/
def turnUsed (s : State) : State := { s with schedule := s.schedule.tail }

/-- The accesses of a list made one after another. -/
def allMade (ops : List HostOp) (s : State) : State := ops.foldl (fun t op => hostAccess op t) s

/-- The values 10_state.md R38 gives for reset. -/
def ResetValues (s : State) : Prop :=
  s.busy = false ∧ s.done = false ∧ s.err = false ∧ s.tv = false ∧ s.errcode = 0#4 ∧ s.pend = none ∧ s.fault = none ∧
  (∀ j : Fin 8, (s.din.get j).marked = false ∧ (s.dout.get j).marked = false ∧ (s.ks.get j).marked = false ∧
    (s.ms.get j).marked = false) ∧
  ∀ i : Fin 64, (s.pt.get i).marked = false ∧ (s.pti.get i).marked = false

end Sys2Proof.Claims

open Sys2Proof.Claims

/-! ### Encoding -/

/-- The command word carries every command with every operand it can have (30_encoding.md R70, R79). -/
def Obligations.DecodeOfEncodeIsTheCommand : Prop :=
  ∀ i : Instr, WellFormed i = true → decode (encode i) = .ok i

/-- Each command has one word: nothing else decodes to it (30_encoding.md R70, R77, R78). -/
def Obligations.EncodeOfDecodedWordIsTheWord : Prop :=
  ∀ (w : Word) (i : Instr), decode w = .ok i → encode i = w ∧ WellFormed i = true

/-- R74 (with the opcode map of R72): which of the three answers the decoder gives, for every word. -/
def Obligations.DecoderClassifiesEveryWord : Prop :=
  ∀ (w : Word) (op len rsvd : Nat), op = w.toNat % 256 → len = w.toNat / 256 % 256 → rsvd = w.toNat / 65536 →
    (0x0B < op → decode w = .error .illegalOpcode) ∧
    (op ≤ 0x0B → rsvd ≠ 0 → decode w = .error .reservedField) ∧
    (op ≤ 0x0B → rsvd = 0 → op ≠ 0x07 → len ≠ 0 → decode w = .error .reservedField) ∧
    (op ≤ 0x0B → rsvd = 0 → op = 0x07 ∨ len = 0 → ∃ i, decode w = .ok i ∧
      [.nop, .gen, .invert, .verify, .permFwd, .permInv, .deriveKey, .segment len, .encrypt, .decrypt, .expand,
        .subst][op]? = some i)

/-- R81: the command words, each written out and decoded. -/
def Obligations.CommandWordsDecode : Prop :=
  decode 0x00000000#32 = .ok .nop ∧ decode 0x00000001#32 = .ok .gen ∧ decode 0x00000002#32 = .ok .invert ∧
  decode 0x00000003#32 = .ok .verify ∧ decode 0x00000004#32 = .ok .permFwd ∧ decode 0x00000005#32 = .ok .permInv ∧
  decode 0x00000006#32 = .ok .deriveKey ∧ decode 0x00002007#32 = .ok (.segment 32) ∧
  decode 0x00000008#32 = .ok .encrypt ∧ decode 0x00000009#32 = .ok .decrypt ∧ decode 0x0000000A#32 = .ok .expand ∧
  decode 0x0000000B#32 = .ok .subst

/-! ### Steps, accept and completion -/

/-- R76: on the engine's turn a step is the decoded command's execution. That the turn comes from a schedule in the
state is the model's choice (log entry 8). -/
def Obligations.StepRunsThePendingCommand : Prop :=
  ∀ (s : State) (w : Word) (i : Instr), EngineTurn s w → decode w = .ok i → step s = exec i (turnUsed s)

/-- On the host's turn a step is the host's next access (R64). The host's program in the state is log entry 7. -/
def Obligations.StepMakesTheHostAccess : Prop :=
  ∀ (s : State) (op : HostOp) (rest : List HostOp), HostTurn s op rest →
    step s = .next (hostAccess op { turnUsed s with program := rest })

/-- On the host's turn a `CMD` write that passes the checks issues the word (R75), decodes nothing and changes nothing else.
The turn and the host's program are log entries 7 and 8. -/
def Obligations.CmdWriteIssuesTheWord : Prop :=
  ∀ (s : State) (w : Word) (rest : List HostOp), HostTurn s (.write (Config.base + 0x000) 4 w) rest → s.busy = false →
    step s = .next { s with
      pend := some w, busy := true, done := false, err := false, errcode := 0#4
      program := rest, schedule := s.schedule.tail }

/-- A command runs on the state its `CMD` write left (R64, R67). -/
def Obligations.IssuedCommandRunsOnTheStateLeft : Prop :=
  ∀ (s : State) (w : Word) (i : Instr) (rest : List HostOp) (later : List Turn),
    s.fault = none → s.busy = false → s.program = .write (Config.base + 0x000) 4 w :: rest →
    s.schedule = .host :: .engine :: later → decode w = .ok i →
    ∃ t, core.run 1 s = .next t ∧ step t = exec i { s with
      pend := some w, busy := true, done := false, err := false, errcode := 0#4, program := rest, schedule := later }

/-- The errors a word can end in come in the order of R202, each with nothing else changed and whatever else is defined:
the two table errors too, where the defined entries show them (log entry 11). The turn is log entry 8. -/
def Obligations.ErrorsComeInOrder : Prop :=
  ∀ (s : State) (w : Word) (op len rsvd : Nat), EngineTurn s w →
    op = w.toNat % 256 → len = w.toNat / 256 % 256 → rsvd = w.toNat / 65536 →
    (0x0B < op → step s = .next (ends 1#4 (turnUsed s))) ∧
    (op ≤ 0x0B → (rsvd ≠ 0 ∨ (op ≠ 0x07 ∧ len ≠ 0)) → step s = .next (ends 2#4 (turnUsed s))) ∧
    (op = 0x07 → rsvd = 0 → len ≠ 32 → step s = .next (ends 3#4 (turnUsed s))) ∧
    (rsvd = 0 → ((op = 0x04 ∨ op = 0x05 ∨ op = 0x06 ∨ op = 0x09) ∧ len = 0) ∨ (op = 0x07 ∧ len = 32) → s.tv = false →
      step s = .next (ends 4#4 (turnUsed s))) ∧
    (op = 0x02 → rsvd = 0 → len = 0 → tableRepeats s.pt → step s = .next (ends 5#4 (turnUsed s))) ∧
    (op = 0x03 → rsvd = 0 → len = 0 → tablesMismatch s.pt s.pti → step s = .next (ends 6#4 (turnUsed s)))

/-- `SEGMENT` requires `LEN = 32`, and every other opcode requires `LEN = 0` (R73). The turn is log entry 8. -/
def Obligations.LengthFieldIsChecked : Prop :=
  ∀ (s : State) (w : Word), EngineTurn s w → w.toNat / 65536 = 0 →
    (w.toNat % 256 = 0x07 → w.toNat / 256 % 256 ≠ 32 → step s = .next (ends 3#4 (turnUsed s))) ∧
    (w.toNat % 256 = 0x07 → w.toNat / 256 % 256 = 32 → step s = exec (.segment 32) (turnUsed s) ∧
      ∀ t, step s = .next t → t.fault = none → t.errcode ≠ 3#4) ∧
    (w.toNat % 256 ≤ 0x0B → w.toNat % 256 ≠ 0x07 → w.toNat / 256 % 256 ≠ 0 → step s = .next (ends 2#4 (turnUsed s)))

/-- R204: a command that completes with an error changes `BUSY`, `DONE`, `ERR`, `ERRCODE` and `PEND` alone. -/
def Obligations.ErrorsAreAllOrNothing : Prop :=
  ∀ (i : Instr) (s t : State), s.fault = none → exec i s = .next t → t.fault = none → t.errcode ≠ 0#4 →
    t = { s with errcode := t.errcode, err := true, done := true, busy := false, pend := none }

/-- A fault is recorded and nothing else changes, a faulted state has no step of any agent and is not the end of a run, and
reset alone clears the record (R207). That `step` answers the fault is log entry 1, the turn of reset is log entry 9. -/
def Obligations.FaultIsStickyAndChangesNothingElse : Prop :=
  (∀ (i : Instr) (s t : State), exec i s = .next t → t.fault ≠ s.fault → ∃ r, t = faulted r s) ∧
  (∀ (op : HostOp) (s : State), (hostAccess op s).fault ≠ s.fault → ∃ r, hostAccess op s = faulted r s) ∧
  (∀ (s : State) (r : Fault), s.fault = some r → s.schedule.head? ≠ some .reset → step s = .fault r) ∧
  (∀ (s t : State), s.fault ≠ none → step s = .next t → s.schedule.head? = some .reset ∧ t.fault = none) ∧
  (∀ s : State, s.fault ≠ none → ¬ Ended s)

/-- A command that passes its error checks and reads a cell nothing has written faults, and only then does a command fault
(R31, R76, R202). What the checks of `INVERT` and `VERIFY` find on partly defined tables is log entry 11; an undefined
table under TV = 1 is log entry 14. -/
def Obligations.UndefinedOperandFaults : Prop :=
  ∀ (i : Instr) (s : State), s.fault = none →
    (passesGate i s → readsUndefined i s → exec i s = .next (faulted .unwrittenRead s)) ∧
    (∀ t, exec i s = .next t → t.fault ≠ none → passesGate i s ∧ readsUndefined i s)

/-! ### The commands -/

/-- `NOP` (R130): it completes, and clears what the last command reported. -/
def Obligations.NopCompletes : Prop :=
  ∀ s : State, ∃ t, exec .nop s = .next t ∧ t = ends 0#4 s ∧ errcodeWord t = 0#32 ∧
    statusWord t = if s.tv then 0xA#32 else 0x2#32

/-- `GEN` (R131), for whatever bijection is drawn: `PT` is the draw, `PTI` its inverse, TV is set, and the next draw is
another. -/
def Obligations.GenStoresTheDrawAndItsInverse : Prop :=
  ∀ s : State, ∃ (σ : Equiv.Perm (Fin 64)) (t : State), σ = Config.genDraw s.draws ∧ exec .gen s = .next t ∧
    allMarked t.pt ∧ allMarked t.pti ∧ (∀ i, tableOf t.pt i = σ i) ∧ (∀ i, tableOf t.pti (σ i) = i) ∧
    t = ends 0#4 { s with pt := t.pt, pti := t.pti, tv := true, draws := s.draws + 1 }

/-- `INVERT` (R132): the inverse of a bijection, or TABLE_NOT_BIJECTION where two defined entries are equal, or the fault
where none are and some entry is not defined (R202; log entry 11). -/
def Obligations.InvertWritesTheInverse : Prop :=
  ∀ s : State,
    (allMarked s.pt → Function.Injective (tableOf s.pt) → ∃ t, exec .invert s = .next t ∧ allMarked t.pti ∧
      (∀ i, tableOf t.pti (tableOf s.pt i) = i) ∧ t = ends 0#4 { s with pti := t.pti, tv := true }) ∧
    (∀ i j, i ≠ j → (s.pt.get i).marked = true → (s.pt.get j).marked = true → tableOf s.pt i = tableOf s.pt j →
      exec .invert s = .next (ends 5#4 s)) ∧
    (¬ allMarked s.pt → ¬ tableRepeats s.pt → exec .invert s = .next (faulted .unwrittenRead s))

/-- `VERIFY` (R133): it succeeds exactly on mutual inverses and writes no entry; a swapped pair passes too. It ends with
TABLE_MISMATCH where the defined entries show one (a defined `PTI[PT[i]]` that is not `i`, two equal `PT` entries, the
same with the tables exchanged), and faults where they do not and some entry is not defined (R202; log entry 11). -/
def Obligations.VerifyAcceptsMutualInverses : Prop :=
  ∀ s : State,
    (allMarked s.pt → allMarked s.pti → (∀ i, tableOf s.pti (tableOf s.pt i) = i) →
      exec .verify s = .next (ends 0#4 { s with tv := true }) ∧
      exec .verify { s with pt := s.pti, pti := s.pt } =
        .next (ends 0#4 { s with pt := s.pti, pti := s.pt, tv := true })) ∧
    (∀ i, (s.pt.get i).marked = true → (s.pti.get (tableOf s.pt i)).marked = true →
      tableOf s.pti (tableOf s.pt i) ≠ i → exec .verify s = .next (ends 6#4 s)) ∧
    (tablesMismatch s.pt s.pti → exec .verify s = .next (ends 6#4 s)) ∧
    (¬ (allMarked s.pt ∧ allMarked s.pti) → ¬ tablesMismatch s.pt s.pti →
      exec .verify s = .next (faulted .unwrittenRead s))

/-- `INVERT` and `VERIFY` end with their table error exactly where no values of the undefined entries would pass the
check of R132 or R133: log entry 11 in the words of R103 and R105. -/
def Obligations.TableErrorsAreForcedByTheDefinedEntries : Prop :=
  ∀ s : State, s.fault = none →
    (exec .invert s = .next (ends 5#4 s) ↔
      ∀ t : Table, (∀ i, (s.pt.get i).marked = true → t i = tableOf s.pt i) → ¬ Function.Injective t) ∧
    (exec .verify s = .next (ends 6#4 s) ↔
      ∀ t u : Table, (∀ i, (s.pt.get i).marked = true → t i = tableOf s.pt i) →
        (∀ i, (s.pti.get i).marked = true → u i = tableOf s.pti i) → ∃ i, u (t i) ≠ i)

/-- `PERM_FWD` and `PERM_INV` (R134, R135): each block of `DOUT` is the block of `DIN` under `PT`, or under `PTI`. -/
def Obligations.PermCommandsPermuteBlocks : Prop :=
  ∀ s : State, s.tv = true → allMarked s.din →
    (allMarked s.pt → ∃ t, exec .permFwd s = .next t ∧ allMarked t.dout ∧
      (∀ b : Fin 4, PermutedBy (tableOf s.pt) (wordsOf s.din (evenIdx b) ++ wordsOf s.din (oddIdx b))
        (wordsOf t.dout (evenIdx b) ++ wordsOf t.dout (oddIdx b))) ∧
      t = ends 0#4 { s with dout := t.dout }) ∧
    (allMarked s.pti → ∃ t, exec .permInv s = .next t ∧ allMarked t.dout ∧
      (∀ b : Fin 4, PermutedBy (tableOf s.pti) (wordsOf s.din (evenIdx b) ++ wordsOf s.din (oddIdx b))
        (wordsOf t.dout (evenIdx b) ++ wordsOf t.dout (oddIdx b))) ∧
      t = ends 0#4 { s with dout := t.dout })

/-- `PERM_INV` undoes `PERM_FWD`, and `PERM_FWD` undoes `PERM_INV` (R135, corner case). -/
def Obligations.PermCommandsUndoEachOther : Prop :=
  ∀ s : State, s.tv = true → TablesValid s → allMarked s.din →
    (∃ t u, exec .permFwd s = .next t ∧ exec .permInv { t with din := t.dout } = .next u ∧
      allMarked u.dout ∧ wordsOf u.dout = wordsOf s.din) ∧
    (∃ t u, exec .permInv s = .next t ∧ exec .permFwd { t with din := t.dout } = .next u ∧
      allMarked u.dout ∧ wordsOf u.dout = wordsOf s.din)

/-- R136: the five commands that read a table are refused while TV = 0, no other command is, and a table they apply is
a verified bijection with its inverse. -/
def Obligations.TableGateRefusesUnverifiedTables : Prop :=
  (∀ (s : State) (i : Instr), i ∈ [.permFwd, .permInv, .deriveKey, .segment 32, .decrypt] → s.tv = false →
    exec i s = .next (ends 4#4 s)) ∧
  (∀ (s t : State) (i : Instr), i ∈ [.encrypt, .expand, .subst, .nop, .gen, .invert, .verify] → s.fault = none →
    exec i s = .next t → t.fault = none → t.errcode ≠ 4#4) ∧
  (∀ s : State, Inv s → s.tv = true → Function.Bijective (tableOf s.pt) ∧ Function.Bijective (tableOf s.pti) ∧
    (∀ i, tableOf s.pti (tableOf s.pt i) = i) ∧ ∀ i, tableOf s.pt (tableOf s.pti i) = i)

/-- `DERIVE_KEY` (R150): the four pairs of `DIN`, permuted and split, are `KS`. -/
def Obligations.DeriveKeyMarshalsTheDigest : Prop :=
  ∀ (s : State) (d : Segments), s.tv = true → allMarked s.din → allMarked s.pt → d = wordsOf s.din →
    ∃ (t : State) (o : Segments), exec .deriveKey s = .next t ∧ allMarked t.ks ∧ o = wordsOf t.ks ∧
      PermutedBy (tableOf s.pt) (d 0 ++ d 2) (o 0 ++ o 1) ∧ PermutedBy (tableOf s.pt) (d 1 ++ d 3) (o 2 ++ o 3) ∧
      PermutedBy (tableOf s.pt) (d 4 ++ d 6) (o 4 ++ o 5) ∧ PermutedBy (tableOf s.pt) (d 5 ++ d 7) (o 6 ++ o 7) ∧
      t = ends 0#4 { s with ks := t.ks }

/-- `SEGMENT` (R151): with `LEN = 32` the four pairs of `DIN`, permuted and split, are `MS`; with any other length it
ends with INVALID_MESSAGE_LENGTH, whatever TV is and whatever is defined. -/
def Obligations.SegmentMarshalsThePlaintext : Prop :=
  (∀ (s : State) (d : Segments), s.tv = true → allMarked s.din → allMarked s.pt → d = wordsOf s.din →
    ∃ (t : State) (o : Segments), exec (.segment 32) s = .next t ∧ allMarked t.ms ∧ o = wordsOf t.ms ∧
      PermutedBy (tableOf s.pt) (d 0 ++ d 2) (o 0 ++ o 1) ∧ PermutedBy (tableOf s.pt) (d 1 ++ d 3) (o 2 ++ o 3) ∧
      PermutedBy (tableOf s.pt) (d 4 ++ d 6) (o 4 ++ o 5) ∧ PermutedBy (tableOf s.pt) (d 5 ++ d 7) (o 6 ++ o 7) ∧
      t = ends 0#4 { s with ms := t.ms }) ∧
  ∀ (s : State) (len : Nat), len ≠ 32 → exec (.segment len) s = .next (ends 3#4 s)

/-- R152: equal `DIN` and `PT` give equal `KS`, and equal `MS`, whatever else differs. -/
def Obligations.MarshallingIsDeterministic : Prop :=
  ∀ (s s' t t' : State), s.tv = true → s'.tv = true → s.din = s'.din → s.pt = s'.pt → allMarked s.din → allMarked s.pt →
    (exec .deriveKey s = .next t → exec .deriveKey s' = .next t' → t.ks = t'.ks) ∧
    (exec (.segment 32) s = .next t → exec (.segment 32) s' = .next t' → t.ms = t'.ms)

/-- `ENCRYPT` (R170), with R173: the right half first and unencrypted, then the left half under the round function. The
even `KS` words need not be defined. -/
def Obligations.EncryptRunsOneRoundPerLane : Prop :=
  ∀ s : State, allMarked s.ms → oddMarked s.ks → ∃ t, exec .encrypt s = .next t ∧ allMarked t.dout ∧
    (∀ l : Fin 4, wordsOf t.dout (evenIdx l) = wordsOf s.ms (oddIdx l) ∧
      RoundValue (wordsOf s.ms (oddIdx l)) (wordsOf s.ks (oddIdx l))
        (wordsOf s.ms (evenIdx l) ^^^ wordsOf t.dout (oddIdx l))) ∧
    t = ends 0#4 { s with dout := t.dout }

/-- `DECRYPT` (R171): in each lane the recovered block, permuted by `PTI`, stands at the two places the reorder mux
sends it to. -/
def Obligations.DecryptInvertsRoundPermutationAndPairing : Prop :=
  ∀ (s : State) (c : Segments), s.tv = true → allMarked s.din → oddMarked s.ks → allMarked s.pti → c = wordsOf s.din →
    ∃ (t : State) (d : Segments) (f : Fin 4 → Word), exec .decrypt s = .next t ∧ allMarked t.dout ∧ d = wordsOf t.dout ∧
      (∀ l : Fin 4, RoundValue (c (evenIdx l)) (wordsOf s.ks (oddIdx l)) (f l)) ∧
      PermutedBy (tableOf s.pti) ((c 1 ^^^ f 0) ++ c 0) (d 0 ++ d 2) ∧
      PermutedBy (tableOf s.pti) ((c 3 ^^^ f 1) ++ c 2) (d 1 ++ d 3) ∧
      PermutedBy (tableOf s.pti) ((c 5 ^^^ f 2) ++ c 4) (d 4 ++ d 6) ∧
      PermutedBy (tableOf s.pti) ((c 7 ^^^ f 3) ++ c 6) (d 5 ++ d 7) ∧
      t = ends 0#4 { s with dout := t.dout }

/-- R172: `DECRYPT` of `ENCRYPT` of `SEGMENT` gives the words back, and the bytes, for every key, table and ROM. `e` and
`d` are the states the three commands run in: whatever the host did between them, the segments, the odd keys, the
copied ciphertext and the tables are as R172 asks. -/
def Obligations.DecryptOfEncryptGivesThePlaintext : Prop :=
  ∀ (s e d : State) (w : Segments),
    s.tv = true → TablesValid s → (∀ j, s.din.get j = { value := w j, marked := true }) →
    (∀ s1, exec (.segment 32) s = .next s1 → e.ms = s1.ms) → oddMarked e.ks →
    (∀ s2, exec .encrypt e = .next s2 → d.din = s2.dout) →
    (∀ l : Fin 4, d.ks.get (oddIdx l) = e.ks.get (oddIdx l)) → d.tv = true → d.pti = s.pti →
    ∃ s1 s2 s3, exec (.segment 32) s = .next s1 ∧ exec .encrypt e = .next s2 ∧ exec .decrypt d = .next s3 ∧
      s1.errcode = 0#4 ∧ s2.errcode = 0#4 ∧ s3.errcode = 0#4 ∧
      (∀ j, s3.dout.get j = { value := w j, marked := true }) ∧
      ∀ m : Fin 32 → BitVec 8, w = packBytes m → unpackBytes (wordsOf s3.dout) = m

/-- `EXPAND` (R160): the 48 elements of `E(DIN[0])`, 16 in `DOUT[0]` and 32 in `DOUT[1]`; `DIN[0]` alone is read, and
`DOUT[2..7]` keep their values. -/
def Obligations.ExpandShowsTheExpander : Prop :=
  ∀ s : State, (s.din.get 0).marked = true → ∃ (t : State) (e : Expanded), exec .expand s = .next t ∧
    ExpandedTo Config.expMap (wordsOf s.din 0) e ∧
    t.dout.get 0 = { value := (e.extractLsb' 32 16).setWidth 32, marked := true } ∧
    t.dout.get 1 = { value := e.extractLsb' 0 32, marked := true } ∧
    (∀ j : Fin 8, 2 ≤ j.val → t.dout.get j = s.dout.get j) ∧ t = ends 0#4 { s with dout := t.dout }

/-- `EXPAND` of the constant words, for every ROM (R160, corner cases). -/
def Obligations.ExpandOfConstantWords : Prop :=
  ∀ s t : State, (s.din.get 0).marked = true → exec .expand s = .next t →
    (wordsOf s.din 0 = 0x00000000#32 → wordsOf t.dout 0 = 0x00000000#32 ∧ wordsOf t.dout 1 = 0x00000000#32) ∧
    (wordsOf s.din 0 = 0xFFFFFFFF#32 → wordsOf t.dout 0 = 0x0000FFFF#32 ∧ wordsOf t.dout 1 = 0xFFFFFFFF#32)

/-- `SUBST` (R161): the S-boxes on `DIN[0][15:0] ‖ DIN[1]`; `DOUT[1..7]` keep their values. -/
def Obligations.SubstShowsTheSboxes : Prop :=
  ∀ s : State, (s.din.get 0).marked = true → (s.din.get 1).marked = true → ∃ t, exec .subst s = .next t ∧
    (t.dout.get 0).marked = true ∧
    SubstitutedTo Config.sboxRom ((wordsOf s.din 0).extractLsb' 0 16 ++ wordsOf s.din 1) (wordsOf t.dout 0) ∧
    (∀ j : Fin 8, 1 ≤ j.val → t.dout.get j = s.dout.get j) ∧ t = ends 0#4 { s with dout := t.dout }

/-- No command reads an even `KS` word (R118): whatever stands in them, every command does the same to all else. -/
def Obligations.EvenKeyWordsAreNeverRead : Prop :=
  ∀ (i : Instr) (s : State) (k : RegFile), (∀ l : Fin 4, k.get (oddIdx l) = s.ks.get (oddIdx l)) →
    ∃ t t', exec i s = .next t ∧ exec i { s with ks := k } = .next t' ∧ t' = { t with ks := t'.ks } ∧
      ∀ l : Fin 4, t'.ks.get (oddIdx l) = t.ks.get (oddIdx l)

/-- What a command may write (R22 to R27): no command writes `DIN`, and each other file, table and flag changes under
the commands its rule names alone. -/
def Obligations.CommandsWriteOnlyTheirFiles : Prop :=
  ∀ (i : Instr) (s t : State), exec i s = .next t →
    t.din = s.din ∧ (t.dout ≠ s.dout → i ∈ [.permFwd, .permInv, .encrypt, .decrypt, .expand, .subst]) ∧
    (t.ks ≠ s.ks → i = .deriveKey) ∧ (t.ms ≠ s.ms → i = .segment 32) ∧ (t.pt ≠ s.pt → i = .gen) ∧
    (t.pti ≠ s.pti → i ∈ [.gen, .invert]) ∧ (t.tv ≠ s.tv → i ∈ [.gen, .invert, .verify] ∧ t.tv = true) ∧
    (t.draws ≠ s.draws → i = .gen) ∧ t.program = s.program ∧ t.schedule = s.schedule ∧ t.readLog = s.readLog

/-! ### Datapath laws -/

/-- R102: `apply` in its sequence form and in its word form, for every table. -/
def Obligations.ApplyMovesBitsByTheTable : Prop :=
  ∀ (x : Block) (t : Table) (i : Fin 64),
    (applyTable x t).getMsbD i.val = x.getMsbD (t i).val ∧
    (applyTable x t).getLsbD (63 - i.val) = x.getLsbD (63 - (t i).val)

/-- R105: mutual inverses are exactly the bijections with their inverse, and the relation is symmetric. -/
def Obligations.MutualInverseIsTheInverseOfABijection : Prop :=
  ∀ t u : Table, (mutualInverse t u ↔ isBijection t ∧ u = inverseOf t) ∧
    (mutualInverse t u → (∀ i, t (u i) = i) ∧ isBijection u)

/-- R104: `inverseOf(T)` is the one table that inverts a bijection. -/
def Obligations.InverseOfABijectionIsUnique : Prop :=
  ∀ t : Table, isBijection t → (∀ i, inverseOf t (t i) = i) ∧ ∀ u : Table, (∀ i, u (t i) = i) → u = inverseOf t

/-- R106: applying mutual inverses one after the other, in either order, gives the block back. -/
def Obligations.InverseTablesUndoEachOther : Prop :=
  ∀ (t u : Table) (x : Block), mutualInverse t u → applyTable (applyTable x t) u = x ∧ applyTable (applyTable x u) t = x

/-- R109: the expander selects the mapped bits, in its sequence form and its word form, for every map. -/
def Obligations.ExpanderSelectsTheMappedBits : Prop :=
  ∀ (e : ExpMap) (r : Word), ExpandedTo e r (expander e r) ∧
    ∀ j : Fin 48, (expander e r).getMsbD j.val = r.getMsbD (e j).val

/-- R110: the S-box array looks each chunk up by its outer and inner bits, for every ROM. -/
def Obligations.SboxesLookUpEachChunk : Prop :=
  ∀ (sbox : SboxRom) (x : Expanded), SubstitutedTo sbox x (substitute sbox x)

/-- R113: the expander is linear, so the round function is `S(E(r ^ k))`. -/
def Obligations.ExpanderIsLinear : Prop :=
  ∀ (e : ExpMap) (sbox : SboxRom) (r k : Word),
    expander e r ^^^ expander e k = expander e (r ^^^ k) ∧ roundF e sbox r k = substitute sbox (expander e (r ^^^ k))

/-- R116: the reorder mux is an involution (gather and scatter agree) and inverts the pairing, as in R116's check. -/
def Obligations.ReorderInvertsThePairing : Prop :=
  (∀ j, reordIdx (reordIdx j) = j) ∧
  (∀ (u v : Segments), (∀ j, v (reordIdx j) = u j) → v = reorder u) ∧
  (∀ (u w : Segments), (∀ b : Fin 4, u (evenIdx b) = w (pairA b) ∧ u (oddIdx b) = w (pairC b)) → reorder u = w) ∧
  ∀ w : Segments, reorder ![w 0, w 2, w 1, w 3, w 4, w 6, w 5, w 7] = w

/-- R117: the decrypt pair undoes the encrypt pair for any function in the place of the round function. -/
def Obligations.DecryptPairUndoesEncryptPair : Prop :=
  ∀ (f : Word → Word → Word) (l r k : Word),
    decPair f (firstHalf (encPair f l r k)) (secondHalf (encPair f l r k)) k = l ++ r

/-- R101, with the packing of R58: the word view of a message, its bytes and its 256-bit sequence. -/
def Obligations.BytesPackBigEndian : Prop :=
  ∀ (m : Fin 32 → BitVec 8) (k : Fin 32),
    (packBytes m ⟨k.val / 4, by omega⟩).extractLsb' (24 - 8 * (k.val % 4)) 8 = m k ∧
    (∀ t : Fin 8, messageBit (packBytes m) ⟨8 * k.val + t.val, by omega⟩ = (m k).getLsbD (7 - t.val)) ∧
    unpackBytes (packBytes m) = m ∧ ∀ w : Segments, packBytes (unpackBytes w) = w

/-! ### The host window -/

/-- R51: the register map. Each listed offset names its register and every other offset names none. -/
def Obligations.RegisterMapIsExact : Prop :=
  (∀ (off : Nat) (r : Reg), regAt off = some r ↔ off = regOffset r) ∧ ∀ off : Nat, (regAt off).isSome = true ↔ Mapped off

/-- R52: the five checks of an access, in their order; a faulting access changes nothing of the engine but `FAULT`, and
an access that passes them all does not fault. -/
def Obligations.AccessChecksComeInOrder : Prop :=
  ∀ (s : State) (off size : Nat) (v : Word) (op : HostOp),
    op = .read (Config.base + off) size ∨ op = .write (Config.base + off) size v →
    (size ≠ 4 → hostAccess op s = faulted .busError s) ∧
    (size = 4 → off % 4 ≠ 0 → hostAccess op s = faulted .busError s) ∧
    (size = 4 → off % 4 = 0 → ¬ Mapped off → hostAccess op s = faulted .busError s) ∧
    (size = 4 → Mapped off → s.busy = true →
      ¬ (op = .read (Config.base + off) size ∧ (off = 0x004 ∨ off = 0x008)) →
      hostAccess op s = faulted .hostProtocol s) ∧
    (size = 4 → Mapped off → s.busy = false → op = .read (Config.base + off) size → CellUndefined s off →
      hostAccess op s = faulted .unwrittenRead s) ∧
    (size = 4 → Mapped off → (s.busy = false ∨ off = 0x004 ∨ off = 0x008) → op = .read (Config.base + off) size →
      ¬ CellUndefined s off → (hostAccess op s).fault = s.fault) ∧
    (size = 4 → Mapped off → s.busy = false → op = .write (Config.base + off) size v →
      (hostAccess op s).fault = s.fault)

/-- What each register reads as, that a read has no side effect, and that a second read returns the same (R53). That the
value read is reported in `readLog` is log entry 12. -/
def Obligations.HostReadsReturnTheRegister : Prop :=
  (∀ (s : State) (addr : Nat) (log : List Word), hostRead { s with readLog := log } addr 4 = hostRead s addr 4) ∧
  ∀ s : State, ∃ got : Word → State, (∀ v, got v = { s with readLog := v :: s.readLog }) ∧
    (∃ v, hostAccess (.read (Config.base + 0x004) 4) s = got v ∧
      v.toNat = 8 * s.tv.toNat + 4 * s.err.toNat + 2 * s.done.toNat + s.busy.toNat) ∧
    (∃ v, hostAccess (.read (Config.base + 0x008) 4) s = got v ∧ v.toNat = s.errcode.toNat) ∧
    (s.busy = false →
      hostAccess (.read (Config.base + 0x000) 4) s = got 0#32 ∧
      (∀ j : Fin 8,
        ((s.din.get j).marked = true → hostAccess (.read (Config.base + (0x040 + 4 * j.val)) 4) s = got (wordsOf s.din j)) ∧
        ((s.dout.get j).marked = true → hostAccess (.read (Config.base + (0x060 + 4 * j.val)) 4) s = got (wordsOf s.dout j)) ∧
        ((s.ks.get j).marked = true → hostAccess (.read (Config.base + (0x080 + 4 * j.val)) 4) s = got (wordsOf s.ks j)) ∧
        ((s.ms.get j).marked = true → hostAccess (.read (Config.base + (0x0A0 + 4 * j.val)) 4) s = got (wordsOf s.ms j))) ∧
      ∀ i : Fin 64,
        ((s.pt.get i).marked = true → hostAccess (.read (Config.base + (0x100 + 4 * i.val)) 4) s =
          got (BitVec.ofNat 32 (tableOf s.pt i).val)) ∧
        ((s.pti.get i).marked = true → hostAccess (.read (Config.base + (0x200 + 4 * i.val)) 4) s =
          got (BitVec.ofNat 32 (tableOf s.pti i).val)))

/-- R54, R55, R56: what a host write does to each register but `CMD`, with nothing else changed. -/
def Obligations.HostWritesStoreOrAreIgnored : Prop :=
  ∀ (s : State) (v : Word), s.busy = false →
    (∀ j : Fin 8,
      hostAccess (.write (Config.base + (0x040 + 4 * j.val)) 4 v) s =
        { s with din := s.din.set j.val { value := v, marked := true } j.isLt } ∧
      hostAccess (.write (Config.base + (0x080 + 4 * j.val)) 4 v) s =
        { s with ks := s.ks.set j.val { value := v, marked := true } j.isLt } ∧
      hostAccess (.write (Config.base + (0x0A0 + 4 * j.val)) 4 v) s =
        { s with ms := s.ms.set j.val { value := v, marked := true } j.isLt } ∧
      hostAccess (.write (Config.base + (0x060 + 4 * j.val)) 4 v) s = s) ∧
    hostAccess (.write (Config.base + 0x004) 4 v) s = s ∧ hostAccess (.write (Config.base + 0x008) 4 v) s = s ∧
    ∀ i : Fin 64,
      hostAccess (.write (Config.base + (0x100 + 4 * i.val)) 4 v) s =
        { s with pt := s.pt.set i.val { value := v.setWidth 6, marked := true } i.isLt, tv := false } ∧
      hostAccess (.write (Config.base + (0x200 + 4 * i.val)) 4 v) s =
        { s with pti := s.pti.set i.val { value := v.setWidth 6, marked := true } i.isLt, tv := false }

/-- R57: while the engine is busy, an access to a mapped offset other than a read of `STATUS` or `ERRCODE` faults. -/
def Obligations.BusyAccessFaults : Prop :=
  ∀ (s : State) (off : Nat) (v : Word), s.busy = true → Mapped off →
    hostAccess (.write (Config.base + off) 4 v) s = faulted .hostProtocol s ∧
    (off ≠ 0x004 → off ≠ 0x008 → hostAccess (.read (Config.base + off) 4) s = faulted .hostProtocol s) ∧
    ((off = 0x004 ∨ off = 0x008) → (hostAccess (.read (Config.base + off) 4) s).fault = s.fault)

/-- R60: reads change nothing but what the environment and the fault record note of them; a write of any register but
`CMD` and the tables, made twice, is the write made once, and leaves the status alone; a table write clears TV; a `CMD`
write issues the command (R75). What a read is reported in is log entry 12. -/
def Obligations.HostAccessSideEffects : Prop :=
  (∀ (s : State) (addr size : Nat), ∃ log f, hostAccess (.read addr size) s = { s with readLog := log, fault := f }) ∧
  (∀ (s : State) (off : Nat) (v : Word), Mapped off → off ≠ 0x000 → off < 0x100 →
    ∀ t, t = hostAccess (.write (Config.base + off) 4 v) s →
      hostAccess (.write (Config.base + off) 4 v) t = t ∧ statusWord t = statusWord s ∧ t.errcode = s.errcode ∧
      t.pend = s.pend) ∧
  (∀ (s : State) (off : Nat) (v : Word), Mapped off → 0x100 ≤ off → s.busy = false →
    ∀ t, t = hostAccess (.write (Config.base + off) 4 v) s →
      t.tv = false ∧ t.busy = s.busy ∧ t.done = s.done ∧ t.err = s.err ∧ t.errcode = s.errcode ∧ t.pend = s.pend) ∧
  ∀ (s : State) (v : Word), s.busy = false → hostAccess (.write (Config.base + 0x000) 4 v) s =
    { s with pend := some v, busy := true, done := false, err := false, errcode := 0#4 }

/-- After a table write, whatever its value, the table commands end with TABLE_NOT_VALID (R245). -/
def Obligations.TableWriteClosesTheGate : Prop :=
  ∀ (s t : State) (off : Nat) (v : Word) (i : Instr), Mapped off → 0x100 ≤ off → s.busy = false →
    t = hostAccess (.write (Config.base + off) 4 v) s → i ∈ [.permFwd, .permInv, .deriveKey, .segment 32, .decrypt] →
    exec i t = .next (ends 4#4 t)

/-- The `wait` loop of R80: it stays while `BUSY` reads 1 and is done when it reads 0. -/
def Obligations.WaitPollsUntilNotBusy : Prop :=
  ∀ (s : State) (rest : List HostOp), HostTurn s .wait rest →
    step s = .next { s with
      program := if s.busy then .wait :: rest else rest
      schedule := s.schedule.tail }

/-- The loading pseudo-instructions of R80, as accesses made one after another by a host of an idle engine: `ldw` stores
every word, and `ldtab` the low six bits of every word it is given, of 64 or more too (R56). -/
def Obligations.LoadPseudoInstructionsFillFilesAndTables : Prop :=
  ∀ (s : State) (w : Segments) (v : Fin 64 → Word), s.busy = false →
    (∃ f : RegFile, (∀ j, f.get j = { value := w j, marked := true }) ∧ allMade (ldw .din w) s = { s with din := f } ∧
      allMade (ldw .ks w) s = { s with ks := f } ∧ allMade (ldw .ms w) s = { s with ms := f }) ∧
    ∃ f : Sram, (∀ i, f.get i = { value := (v i).setWidth 6, marked := true }) ∧
      allMade (ldtab .pt v) s = { s with pt := f, tv := false } ∧
      allMade (ldtab .pti v) s = { s with pti := f, tv := false }

/-! ### Whole-machine rules -/

/-- Every step keeps the invariant of `Safety.lean`: `PEND` with `BUSY` (R30), `ERR` with `CODE` (R27), no reserved code
(R200), the table-valid invariant (R37) and the canonical cells (log entry 2). -/
def Obligations.EveryStepKeepsTheInvariant : Prop :=
  ∀ s t : State, Inv s → step s = .next t → Inv t

/-- The invariant holds after reset. -/
def Obligations.ResetMeetsTheInvariant : Prop := Inv State.reset

/-- The state after reset has the values of R38. -/
def Obligations.ResetStateHasTheResetValues : Prop := ResetValues State.reset

/-- Reset from any state, a busy or a faulted one too, gives the values of R38; a pending command leaves no trace (R240,
R241). That reset is a turn, and that what the environment has still to do stays, is log entry 9. -/
def Obligations.ResetDiscardsEverything : Prop :=
  ∀ (s : State) (later : List Turn), s.schedule = .reset :: later → ∃ t, step s = .next t ∧ ResetValues t ∧
    t.program = s.program ∧ t.schedule = later

/-- TV is set by `GEN`, `INVERT` and `VERIFY` on success alone, and cleared by a host table write and by reset alone
(R27). -/
def Obligations.OnlyTableEventsChangeTv : Prop :=
  ∀ s t : State, step s = .next t →
    (s.tv = false → t.tv = true → ∃ w i, s.pend = some w ∧ decode w = .ok i ∧ i ∈ [.gen, .invert, .verify] ∧
      t.errcode = 0#4 ∧ t.err = false ∧ t.busy = false) ∧
    (s.tv = true → t.tv = false → s.schedule.head? = some .reset ∨ ∃ off v rest, Mapped off ∧ 0x100 ≤ off ∧
      s.busy = false ∧ s.program = .write (Config.base + off) 4 v :: rest ∧ t.program = rest)

/-- A cell once defined stays defined until reset (R31). -/
def Obligations.DefinedCellsStayDefined : Prop :=
  ∀ s t : State, step s = .next t → s.schedule.head? ≠ some .reset →
    (∀ j : Fin 8, ((s.din.get j).marked = true → (t.din.get j).marked = true) ∧
      ((s.dout.get j).marked = true → (t.dout.get j).marked = true) ∧
      ((s.ks.get j).marked = true → (t.ks.get j).marked = true) ∧
      ((s.ms.get j).marked = true → (t.ms.get j).marked = true)) ∧
    ∀ i : Fin 64, ((s.pt.get i).marked = true → (t.pt.get i).marked = true) ∧
      ((s.pti.get i).marked = true → (t.pti.get i).marked = true)

/-- An idle engine keeps all its state (R218), said of a machine on which the host does nothing. That a step with nothing
to do answers a next state, the same state with one turn used, is the model's choice (log entry 13). -/
def Obligations.IdleEngineKeepsItsState : Prop :=
  ∀ (k : Nat) (s : State), s.fault = none → s.pend = none → s.program = [] → Turn.reset ∉ s.schedule →
    core.run k s = .next { s with schedule := s.schedule.drop k }

/-- An accepted command completes, faults or is discarded by reset within as many steps as the schedule has turns, and
one (R76). That the engine goes first once the schedule is used up is the model's form of the fairness (log entry 8). -/
def Obligations.AcceptedCommandCompletes : Prop :=
  ∀ (s : State) (w : Word), s.fault = none → s.pend = some w →
    ∃ k t, k ≤ s.schedule.length + 1 ∧ core.run k s = .next t ∧ (t.pend = none ∨ t.fault ≠ none)
end

