-- ==== Sys2Proof/Laws/BitOrder.lean ====
section
/-! SUPPORT. The laws of sequence order, of halves and of the byte packing. -/

namespace Sys2Proof.Machine

/-- Element `i` is bit `n-1-i` (00_scope.md R14). -/
theorem seqBit_eq_getLsbD {n : Nat} (v : BitVec n) {i : Nat} (h : i < n) : seqBit v i = v.getLsbD (n - 1 - i) := by
  simp [seqBit, BitVec.getMsbD, h]

/-- Two words with the same elements are equal. -/
theorem ext_seqBit {n : Nat} {v u : BitVec n} (h : ∀ i : Fin n, seqBit v i.val = seqBit u i.val) : v = u :=
  BitVec.eq_of_getMsbD_eq fun i hi => h ⟨i, hi⟩

/-- The elements of a word built from them. -/
theorem seqBit_ofSeq : (n : Nat) → (f : Fin n → Bool) → (i : Fin n) → seqBit (ofSeq n f) i.val = f i
  | 0, _, i => i.elim0
  | n + 1, f, i => by
    have ih := seqBit_ofSeq n fun j => f j.castSucc
    rw [seqBit_eq_getLsbD _ i.isLt]
    simp only [ofSeq, BitVec.getLsbD_concat, Nat.add_sub_cancel]
    by_cases hi : i.val = n
    · have hl : i = Fin.last n := Fin.ext hi
      subst hl
      simp
    · have hlt : i.val < n := by omega
      have h := ih ⟨i.val, hlt⟩
      rw [seqBit_eq_getLsbD _ hlt] at h
      rw [if_neg (by omega), show n - i.val - 1 = n - 1 - i.val by omega, h]
      exact congrArg f (Fin.ext rfl)

/-- The bits of a block made of two words (R15). -/
theorem getLsbD_block (a b : Word) (i : Nat) :
    BitVec.getLsbD (w := 64) (a ++ b) i = if i < 32 then b.getLsbD i else a.getLsbD (i - 32) :=
  BitVec.getLsbD_append

@[simp] theorem firstHalf_append (a b : Word) : firstHalf (a ++ b) = a := by
  apply BitVec.eq_of_getLsbD_eq
  intro i hi
  rw [firstHalf, BitVec.getLsbD_extractLsb', getLsbD_block]
  simp [hi]

@[simp] theorem secondHalf_append (a b : Word) : secondHalf (a ++ b) = b := by
  apply BitVec.eq_of_getLsbD_eq
  intro i hi
  rw [secondHalf, BitVec.getLsbD_extractLsb', getLsbD_block]
  simp [hi]

@[simp] theorem append_halves (y : Block) : firstHalf y ++ secondHalf y = y := by
  apply BitVec.eq_of_getLsbD_eq
  intro i hi
  rw [getLsbD_block, firstHalf, secondHalf, BitVec.getLsbD_extractLsb', BitVec.getLsbD_extractLsb']
  by_cases h : i < 32
  · simp [h]
  · simp [h, show i - 32 < 32 by omega, show 32 + (i - 32) = i by omega]

@[simp] theorem laneOf_evenIdx (b : Fin 4) : laneOf (evenIdx b) = b := Fin.ext (by simp [laneOf, evenIdx])

@[simp] theorem laneOf_oddIdx (b : Fin 4) : laneOf (oddIdx b) = b := Fin.ext (by simp only [laneOf, oddIdx]; omega)

/-- Every word is the even or the odd word of its lane. -/
theorem evenIdx_or_oddIdx (j : Fin 8) : j = evenIdx (laneOf j) ∨ j = oddIdx (laneOf j) := by
  have := j.isLt
  simp only [Fin.ext_iff, evenIdx, oddIdx, laneOf]
  omega

@[simp] theorem splitBlocks_evenIdx (y : Fin 4 → Block) (b : Fin 4) : splitBlocks y (evenIdx b) = firstHalf (y b) := by
  unfold splitBlocks
  rw [if_pos (by simp [evenIdx]), laneOf_evenIdx]

@[simp] theorem splitBlocks_oddIdx (y : Fin 4 → Block) (b : Fin 4) : splitBlocks y (oddIdx b) = secondHalf (y b) := by
  unfold splitBlocks
  rw [if_neg (by simp only [oddIdx]; omega), laneOf_oddIdx]

@[simp] theorem entryIndex_indexEntry (i : Fin 64) : entryIndex (indexEntry i) = i := by
  apply Fin.ext
  have := i.isLt
  simp [entryIndex, indexEntry]

@[simp] theorem indexEntry_entryIndex (v : Entry) : indexEntry (entryIndex v) = v := by
  apply BitVec.eq_of_toNat_eq
  simp [entryIndex, indexEntry]

end Sys2Proof.Machine
end

