-- ==== Sys2Proof/Laws/Cells.lean ====
section
/-! SUPPORT. The laws of cells and files: a read after a write, what a write leaves alone, when an operand is defined,
and that every operation keeps the canonical form. -/

namespace Sys2Proof.Machine

variable {n w : Nat}

/-! ### Reading and writing cells -/

@[simp] theorem get_tabulate {α : Type} (f : Fin n → α) (j : Fin n) : (tabulate n f).get j = f j := by
  simp [tabulate, Vector.get_eq_getElem]

@[simp] theorem get_storeAll (f : Fin n → BitVec w) (j : Fin n) : (storeAll f).get j = Cell.written (f j) := by
  simp [storeAll]

theorem get_storeAt (v : Vector (Cell w) n) (j k : Fin n) (x : BitVec w) :
    (storeAt v j x).get k = if j = k then Cell.written x else v.get k := by
  simp [storeAt, Vector.get_eq_getElem, Vector.getElem_set, Fin.ext_iff]

@[simp] theorem get_storeAt_self (v : Vector (Cell w) n) (j : Fin n) (x : BitVec w) :
    (storeAt v j x).get j = Cell.written x := by
  simp [get_storeAt]

theorem get_storeAt_ne (v : Vector (Cell w) n) {j k : Fin n} (x : BitVec w) (h : j ≠ k) :
    (storeAt v j x).get k = v.get k := by
  simp [get_storeAt, h]

@[simp] theorem get_replicate {α : Type} (a : α) (j : Fin n) : (Vector.replicate n a).get j = a := by
  simp [Vector.get_eq_getElem]

@[simp] theorem written_value (x : BitVec w) : (Cell.written x).value = x := rfl

@[simp] theorem written_marked (x : BitVec w) : (Cell.written x).marked = true := rfl

@[simp] theorem atReset_marked : (Cell.atReset w).marked = false := rfl

@[simp] theorem read_written (x : BitVec w) : (Cell.written x).read = some x := rfl

theorem read_of_marked {c : Cell w} (h : c.marked = true) : c.read = some c.value := by
  simp [Cell.read, h]

theorem read_of_unmarked {c : Cell w} (h : c.marked = false) : c.read = none := by
  simp [Cell.read, h]

theorem eq_written {c : Cell w} (h : c.marked = true) : c = Cell.written c.value := by
  cases c; simp_all [Cell.written]

/-! ### Operands -/

theorem readAll_of_marked {v : Vector (Cell w) n} (h : allMarked v) : readAll v = some fun j => (v.get j).value := by
  unfold readAll
  exact if_pos h

theorem readAll_of_unmarked {v : Vector (Cell w) n} (h : ¬ allMarked v) : readAll v = none := by
  unfold readAll
  exact if_neg h

theorem readTable_of_marked {v : Sram} (h : allMarked v) : readTable v = some (tableOf v) := by
  simp [readTable, readAll_of_marked h]
  rfl

theorem readTable_of_unmarked {v : Sram} (h : ¬ allMarked v) : readTable v = none := by
  simp [readTable, readAll_of_unmarked h]

theorem readKeys_of_marked {v : RegFile} (h : oddMarked v) :
    readKeys v = some fun l => (v.get (oddIdx l)).value := by
  unfold readKeys
  exact if_pos h

theorem readKeys_of_unmarked {v : RegFile} (h : ¬ oddMarked v) :
    readKeys v = none := by
  unfold readKeys
  exact if_neg h

@[simp] theorem both_some {α β : Type} (a : α) (b : β) : both (some a) (some b) = some (a, b) := rfl

@[simp] theorem both_none_left {α β : Type} (b : Option β) : both (none : Option α) b = none := rfl

@[simp] theorem both_none_right {α β : Type} (a : Option α) : both a (none : Option β) = none := by
  cases a <;> rfl

@[simp] theorem withOperands_some {α : Type} (a : α) (s : State) (k : α → Host.Outcome State Fault Refusal) :
    withOperands (some a) s k = k a := rfl

@[simp] theorem withOperands_none {α : Type} (s : State) (k : α → Host.Outcome State Fault Refusal) :
    withOperands (none : Option α) s k = .next (recordFault .unwrittenRead s) := rfl

theorem requireTv_of_valid {s : State} (h : s.tv = true) (k : Host.Outcome State Fault Refusal) :
    requireTv s k = k := by
  simp [requireTv, h]

theorem requireTv_of_invalid {s : State} (h : s.tv = false) (k : Host.Outcome State Fault Refusal) :
    requireTv s k = .next (complete .tableNotValid s) := by
  simp [requireTv, h, cmdError]

/-- A value read is a value of a defined vector. -/
theorem readAll_eq_some {v : Vector (Cell w) n} {f : Fin n → BitVec w} (h : readAll v = some f) :
    allMarked v ∧ f = fun j => (v.get j).value := by
  by_cases hm : allMarked v
  · rw [readAll_of_marked hm] at h
    exact ⟨hm, (Option.some.inj h).symm⟩
  · simp [readAll_of_unmarked hm] at h

theorem readTable_eq_some {v : Sram} {t : Table} (h : readTable v = some t) : allMarked v ∧ t = tableOf v := by
  by_cases hm : allMarked v
  · rw [readTable_of_marked hm] at h
    exact ⟨hm, (Option.some.inj h).symm⟩
  · simp [readTable_of_unmarked hm] at h

theorem both_eq_some {α β : Type} {a : Option α} {b : Option β} {p : α × β} (h : both a b = some p) :
    a = some p.1 ∧ b = some p.2 := by
  cases a <;> cases b <;> simp at h
  subst h
  simp

/-! ### Marks -/

theorem allMarked_storeAll (f : Fin n → BitVec w) : allMarked (storeAll f) := fun j => by simp

/-- A write leaves every mark that is set. -/
theorem marked_storeAt {v : Vector (Cell w) n} {k : Fin n} (j : Fin n) (x : BitVec w)
    (h : (v.get k).marked = true) : ((storeAt v j x).get k).marked = true := by
  rw [get_storeAt]
  split <;> simp [h]

/-! ### The canonical form -/

theorem canonical_written (x : BitVec w) : cellCanonical (Cell.written x) := by simp [cellCanonical]

theorem canonical_storeAll (f : Fin n → BitVec w) : allCanonical (storeAll f) := fun j => by
  simpa using canonical_written (f j)

theorem canonical_storeAt {v : Vector (Cell w) n} (j : Fin n) (x : BitVec w) (h : allCanonical v) :
    allCanonical (storeAt v j x) := fun k => by
  rw [get_storeAt]
  split
  · exact canonical_written x
  · exact h k

theorem canonical_atReset : allCanonical (Vector.replicate n (Cell.atReset w)) := fun j => by simp [cellCanonical]

/-- In the canonical form, cells that read the same are the same: equal machines are equal data. -/
theorem canonical_ext {v u : Vector (Cell w) n} (hv : allCanonical v) (hu : allCanonical u)
    (h : ∀ j, (v.get j).read = (u.get j).read) : v = u := by
  apply Vector.ext
  intro i hi
  have hr := h ⟨i, hi⟩
  have h1 := hv ⟨i, hi⟩
  have h2 := hu ⟨i, hi⟩
  simp only [Vector.get_eq_getElem] at hr h1 h2
  cases hm : v[i].marked <;> cases hm' : u[i].marked
  · rw [h1 hm, h2 hm']
  · rw [read_of_unmarked hm, read_of_marked hm'] at hr; cases hr
  · rw [read_of_marked hm, read_of_unmarked hm'] at hr; cases hr
  · rw [read_of_marked hm, read_of_marked hm'] at hr
    rw [eq_written hm, eq_written hm', Option.some.inj hr]

/-! ### What is defined of a table -/

theorem known_of_marked {v : Sram} {i : Fin 64} (h : (v.get i).marked = true) : known v i = some (tableOf v i) := by
  simp [known, read_of_marked h, tableOf]

theorem known_of_unmarked {v : Sram} {i : Fin 64} (h : (v.get i).marked = false) : known v i = none := by
  simp [known, read_of_unmarked h]

theorem known_ne_none {v : Sram} {i : Fin 64} : known v i ≠ none ↔ (v.get i).marked = true := by
  cases h : (v.get i).marked <;> simp [known_of_marked, known_of_unmarked, h]

theorem known_eq_some {v : Sram} {i k : Fin 64} : known v i = some k ↔ (v.get i).marked = true ∧ tableOf v i = k := by
  cases h : (v.get i).marked <;> simp [known_of_marked, known_of_unmarked, h]

@[simp] theorem somePos_iff (p : Fin 64 → Bool) : somePos p = true ↔ ∃ i, p i = true := by simp [somePos]

theorem repeats_known (v : Sram) : repeats (known v) = true ↔ tableRepeats v := by
  simp only [repeats, somePos_iff, Bool.and_eq_true, decide_eq_true_eq, Option.isSome_iff_ne_none, known_ne_none]
  constructor
  · rintro ⟨i, mi, j, hij, he⟩
    rw [known_of_marked mi] at he
    obtain ⟨mj, hj⟩ := known_eq_some.mp he.symm
    exact ⟨i, j, hij, mi, mj, hj.symm⟩
  · rintro ⟨i, j, hij, mi, mj, he⟩
    exact ⟨i, mi, j, hij, by rw [known_of_marked mi, known_of_marked mj, he]⟩

theorem leadsAstray_known (v u : Sram) : leadsAstray (known v) (known u) = true ↔ tableAstray v u := by
  simp only [leadsAstray, somePos_iff, tableAstray]
  refine exists_congr fun i => ?_
  cases mi : (v.get i).marked with
  | false => simp [known_of_unmarked mi]
  | true =>
    simp only [known_of_marked mi, Bool.and_eq_true, decide_eq_true_eq, Option.isSome_iff_ne_none, known_ne_none, true_and]
    exact and_congr_right fun mu => by rw [known_of_marked mu, ne_eq, Option.some_inj]

theorem mismatched_known (v u : Sram) : mismatched (known v) (known u) = true ↔ tablesMismatch v u := by
  simp only [mismatched, Bool.or_eq_true, repeats_known, leadsAstray_known, tablesMismatch, or_assoc]

/-- On a table that is all defined, the bijection check is R103's. -/
theorem isBijection_of_marked {v : Sram} (h : allMarked v) : isBijection (tableOf v) ↔ ¬ tableRepeats v :=
  ⟨fun hb ⟨i, j, hij, _, _, he⟩ => hb i j hij he, fun hn i j hij he => hn ⟨i, j, hij, h i, h j, he⟩⟩

/-- Mutual inverses show no mismatch, however much of them is defined. -/
theorem no_mismatch_of_extension {v u : Sram} {t w : Table} (ht : ∀ i, (v.get i).marked = true → t i = tableOf v i)
    (hw : ∀ i, (u.get i).marked = true → w i = tableOf u i) (hm : mutualInverse t w) : ¬ tablesMismatch v u := by
  have hinj : Function.Injective t := Function.LeftInverse.injective hm
  have hm' : ∀ i, t (w i) = i := fun i => by
    obtain ⟨j, rfl⟩ := (Finite.injective_iff_surjective.mp hinj) i
    rw [hm j]
  rintro (⟨i, j, hij, mi, mj, he⟩ | ⟨i, j, hij, mi, mj, he⟩ | ⟨i, mi, mu, hn⟩ | ⟨i, mi, mu, hn⟩)
  · exact hij (hinj (by rw [ht i mi, ht j mj, he]))
  · exact hij (Function.LeftInverse.injective hm' (by rw [hw i mi, hw j mj, he]))
  · exact hn (by rw [← hw _ mu, ← ht i mi, hm])
  · exact hn (by rw [← ht _ mu, ← hw i mi, hm'])

/-- On tables that are all defined, the mismatch check is R105's. -/
theorem mutualInverse_of_marked {v u : Sram} (hv : allMarked v) (hu : allMarked u) :
    mutualInverse (tableOf v) (tableOf u) ↔ ¬ tablesMismatch v u :=
  ⟨no_mismatch_of_extension (fun _ _ => rfl) (fun _ _ => rfl), fun hn i => by
    by_contra he
    exact hn (.inr (.inr (.inl ⟨i, hv i, hu _, he⟩)))⟩

end Sys2Proof.Machine
end

