-- ==== Sys2Proof/Laws/Commands.lean ====
section
/-! SUPPORT. What a command can do, said once: one law per command and one inversion law for all of them. -/

namespace Sys2Proof.Machine

/-- What a command that succeeds writes before it completes, and what it needs: `s` before, `s'` after the writes. -/
def Writes (i : Instr) (s s' : State) : Prop :=
  match i with
  | .nop => s' = s
  | .gen => s' = { s with
      pt := storeTable fun i => Config.genDraw s.draws i
      pti := storeTable (inverseOf fun i => Config.genDraw s.draws i)
      tv := true, draws := s.draws + 1 }
  | .invert => allMarked s.pt ∧ isBijection (tableOf s.pt) ∧
      s' = { s with pti := storeTable (inverseOf (tableOf s.pt)), tv := true }
  | .verify => allMarked s.pt ∧ allMarked s.pti ∧ mutualInverse (tableOf s.pt) (tableOf s.pti) ∧
      s' = { s with tv := true }
  | .permFwd => s.tv = true ∧ allMarked s.din ∧ allMarked s.pt ∧
      s' = { s with dout := storeAll (permuteBlocks (wordsOf s.din) (tableOf s.pt)) }
  | .permInv => s.tv = true ∧ allMarked s.din ∧ allMarked s.pti ∧
      s' = { s with dout := storeAll (permuteBlocks (wordsOf s.din) (tableOf s.pti)) }
  | .deriveKey => s.tv = true ∧ allMarked s.din ∧ allMarked s.pt ∧
      s' = { s with ks := storeAll (marshal (wordsOf s.din) (tableOf s.pt)) }
  | .segment len => len = 32 ∧ s.tv = true ∧ allMarked s.din ∧ allMarked s.pt ∧
      s' = { s with ms := storeAll (marshal (wordsOf s.din) (tableOf s.pt)) }
  | .encrypt => allMarked s.ms ∧ oddMarked s.ks ∧
      s' = { s with dout := storeAll (encryptLanes engineF (wordsOf s.ms) fun l => wordsOf s.ks (oddIdx l)) }
  | .decrypt => s.tv = true ∧ allMarked s.din ∧ oddMarked s.ks ∧
      allMarked s.pti ∧
      s' = { s with
        dout := storeAll (decryptLanes engineF (wordsOf s.din) (fun l => wordsOf s.ks (oddIdx l)) (tableOf s.pti)) }
  | .expand => (s.din.get 0).marked = true ∧
      s' = { s with
        dout := storeAt (storeAt s.dout 0 (expandHigh (expander Config.expMap (wordsOf s.din 0)))) 1
          (expandLow (expander Config.expMap (wordsOf s.din 0))) }
  | .subst => (s.din.get 0).marked = true ∧ (s.din.get 1).marked = true ∧
      s' = { s with
        dout := storeAt s.dout 0 (substitute Config.sboxRom (substInput (wordsOf s.din 0) (wordsOf s.din 1))) }

/-- Which error a command ends with, and when (60_exceptions.md R200). -/
def Raises (i : Instr) (s : State) (e : ErrCode) : Prop :=
  match e with
  | .ok | .illegalOpcode | .reservedField => False
  | .invalidMessageLength => ∃ len, i = .segment len ∧ len ≠ 32
  | .tableNotValid => s.tv = false ∧ i ∈ [.permFwd, .permInv, .deriveKey, .segment 32, .decrypt]
  | .tableNotBijection => i = .invert ∧ tableRepeats s.pt
  | .tableMismatch => i = .verify ∧ tablesMismatch s.pt s.pti

/-! ### Success: what each command needs is enough -/

/-- A command whose needs are met writes and completes. -/
theorem exec_of_writes {i : Instr} {s s' : State} (h : Writes i s s') : exec i s = .next (complete .ok s') := by
  cases i with
  | nop => cases h; rfl
  | gen => cases h; rfl
  | invert =>
    obtain ⟨hp, hb, rfl⟩ := h
    rw [isBijection_of_marked hp, ← repeats_known] at hb
    simp only [exec, execInvert, if_neg hb, readTable_of_marked hp, withOperands_some, finish]
  | verify =>
    obtain ⟨hp, hq, hm, rfl⟩ := h
    rw [mutualInverse_of_marked hp hq, ← mismatched_known] at hm
    simp only [exec, execVerify, if_neg hm, readTable_of_marked hp, readTable_of_marked hq, both_some, withOperands_some,
      finish]
  | permFwd =>
    obtain ⟨ht, hd, hp, rfl⟩ := h
    simp only [exec, execPermFwd, requireTv_of_valid ht, readAll_of_marked hd, readTable_of_marked hp, both_some, withOperands_some, finish]
    rfl
  | permInv =>
    obtain ⟨ht, hd, hp, rfl⟩ := h
    simp only [exec, execPermInv, requireTv_of_valid ht, readAll_of_marked hd, readTable_of_marked hp, both_some, withOperands_some, finish]
    rfl
  | deriveKey =>
    obtain ⟨ht, hd, hp, rfl⟩ := h
    simp only [exec, execDeriveKey, requireTv_of_valid ht, readAll_of_marked hd, readTable_of_marked hp, both_some, withOperands_some, finish]
    rfl
  | segment len =>
    obtain ⟨rfl, ht, hd, hp, rfl⟩ := h
    simp only [exec, execSegment, ne_eq, not_true_eq_false, if_false, requireTv_of_valid ht, readAll_of_marked hd, readTable_of_marked hp, both_some, withOperands_some, finish]
    rfl
  | encrypt =>
    obtain ⟨hm, hk, rfl⟩ := h
    simp only [exec, execEncrypt, readAll_of_marked hm, readKeys_of_marked hk, both_some, withOperands_some, finish]
    rfl
  | decrypt =>
    obtain ⟨ht, hd, hk, hp, rfl⟩ := h
    simp only [exec, execDecrypt, requireTv_of_valid ht, readAll_of_marked hd, readKeys_of_marked hk,
      readTable_of_marked hp, both_some, withOperands_some, finish]
    rfl
  | expand =>
    obtain ⟨hd, rfl⟩ := h
    simp only [exec, execExpand, read_of_marked hd, withOperands_some, finish]
    rfl
  | subst =>
    obtain ⟨h0, h1, rfl⟩ := h
    simp only [exec, execSubst, read_of_marked h0, read_of_marked h1, both_some, withOperands_some, finish]
    rfl

/-! ### Inversion: all that a command can do -/

theorem withOperands_cases {α : Type} {o : Option α} {s : State} {k : α → Host.Outcome State Fault Refusal}
    {P : Host.Outcome State Fault Refusal → Prop} (hsome : ∀ a, o = some a → P (k a))
    (hnone : o = none → P (.next (recordFault .unwrittenRead s))) : P (withOperands o s k) := by
  cases o with
  | none => exact hnone rfl
  | some a => exact hsome a rfl

theorem requireTv_cases {s : State} {k : Host.Outcome State Fault Refusal}
    {P : Host.Outcome State Fault Refusal → Prop} (hvalid : s.tv = true → P k)
    (hinvalid : s.tv = false → P (.next (complete .tableNotValid s))) : P (requireTv s k) := by
  cases h : s.tv with
  | true => rw [requireTv_of_valid h]; exact hvalid h
  | false => rw [requireTv_of_invalid h]; exact hinvalid h

/-- The three ways a command ends: an error with nothing written, a fault with nothing written, or its writes. -/
def Ends (i : Instr) (s : State) (o : Host.Outcome State Fault Refusal) : Prop :=
  (∃ e, Raises i s e ∧ o = .next (complete e s)) ∨
    (passesGate i s ∧ readsUndefined i s ∧ o = .next (recordFault .unwrittenRead s)) ∨
    ∃ s', Writes i s s' ∧ o = .next (complete .ok s')

theorem Ends.error {i : Instr} {s : State} (e : ErrCode) (h : Raises i s e) : Ends i s (.next (complete e s)) :=
  .inl ⟨e, h, rfl⟩

theorem Ends.fault {i : Instr} {s : State} (hg : passesGate i s) (hu : readsUndefined i s) :
    Ends i s (.next (recordFault .unwrittenRead s)) := .inr (.inl ⟨hg, hu, rfl⟩)

theorem Ends.writes {i : Instr} {s s' : State} (h : Writes i s s') : Ends i s (.next (complete .ok s')) :=
  .inr (.inr ⟨s', h, rfl⟩)

/-! An operand that is missing has a cell that is not defined. -/

theorem readAll_eq_none {n w : Nat} {v : Vector (Cell w) n} (h : readAll v = none) : ¬ allMarked v := fun hm => by
  simp [readAll_of_marked hm] at h

theorem readTable_eq_none {v : Sram} (h : readTable v = none) : ¬ allMarked v := fun hm => by
  simp [readTable_of_marked hm] at h

theorem readKeys_eq_none {v : RegFile} (h : readKeys v = none) : ¬ oddMarked v := fun hm => by
  simp [readKeys_of_marked hm] at h

theorem read_eq_none {w : Nat} {c : Cell w} (h : c.read = none) : c.marked = false := by
  cases hm : c.marked with
  | false => rfl
  | true => simp [read_of_marked hm] at h

theorem both_eq_none {α β : Type} {a : Option α} {b : Option β} (h : both a b = none) : a = none ∨ b = none := by
  cases a <;> cases b <;> simp_all

theorem read_eq_some {w : Nat} {c : Cell w} {v : BitVec w} (h : c.read = some v) : c.marked = true ∧ v = c.value := by
  cases hm : c.marked with
  | false => simp [read_of_unmarked hm] at h
  | true => rw [read_of_marked hm] at h; exact ⟨rfl, (Option.some.inj h).symm⟩

theorem readKeys_eq_some {v : RegFile} {f : Fin 4 → Word} (h : readKeys v = some f) :
    oddMarked v ∧ f = fun l => wordsOf v (oddIdx l) := by
  by_cases hm : oddMarked v
  · rw [readKeys_of_marked hm] at h
    exact ⟨hm, (Option.some.inj h).symm⟩
  · simp [readKeys_of_unmarked hm] at h

/-- A file and a table that are both read are both defined. -/
theorem file_and_table {v : RegFile} {u : Sram} {p : Segments × Table} (h : both (readAll v) (readTable u) = some p) :
    allMarked v ∧ allMarked u ∧ p = (wordsOf v, tableOf u) := by
  obtain ⟨ha, hb⟩ := both_eq_some h
  obtain ⟨hv, e1⟩ := readAll_eq_some ha
  obtain ⟨hu, e2⟩ := readTable_eq_some hb
  exact ⟨hv, hu, Prod.ext e1 e2⟩

/-- Every command ends in one of the three ways. -/
theorem exec_ends (i : Instr) (s : State) : Ends i s (exec i s) := by
  cases i with
  | nop => exact Ends.writes rfl
  | gen => exact Ends.writes rfl
  | invert =>
    show Ends _ s (execInvert s)
    rw [execInvert]
    split
    · exact Ends.error .tableNotBijection ⟨rfl, (repeats_known _).mp ‹_›⟩
    · have hr : ¬ tableRepeats s.pt := (repeats_known _).not.mp ‹_›
      refine withOperands_cases (fun t ht => ?_) fun hn => Ends.fault hr (readTable_eq_none hn)
      obtain ⟨hp, rfl⟩ := readTable_eq_some ht
      exact Ends.writes ⟨hp, (isBijection_of_marked hp).mpr hr, rfl⟩
  | verify =>
    show Ends _ s (execVerify s)
    rw [execVerify]
    split
    · exact Ends.error .tableMismatch ⟨rfl, (mismatched_known _ _).mp ‹_›⟩
    · have hm : ¬ tablesMismatch s.pt s.pti := (mismatched_known _ _).not.mp ‹_›
      refine withOperands_cases (fun p hp => ?_) fun hn =>
        Ends.fault hm ((both_eq_none hn).imp readTable_eq_none readTable_eq_none)
      obtain ⟨ha, hb⟩ := both_eq_some hp
      obtain ⟨h1, -⟩ := readTable_eq_some ha
      obtain ⟨h2, -⟩ := readTable_eq_some hb
      exact Ends.writes ⟨h1, h2, (mutualInverse_of_marked h1 h2).mpr hm, rfl⟩
  | permFwd =>
    refine requireTv_cases (fun ht => withOperands_cases (fun p hp => ?_) fun hn => ?_)
      fun ht => Ends.error .tableNotValid ⟨ht, by simp⟩
    · obtain ⟨hd, hq, rfl⟩ := file_and_table hp
      exact Ends.writes ⟨ht, hd, hq, rfl⟩
    · exact Ends.fault ht ((both_eq_none hn).imp readAll_eq_none readTable_eq_none)
  | permInv =>
    refine requireTv_cases (fun ht => withOperands_cases (fun p hp => ?_) fun hn => ?_)
      fun ht => Ends.error .tableNotValid ⟨ht, by simp⟩
    · obtain ⟨hd, hq, rfl⟩ := file_and_table hp
      exact Ends.writes ⟨ht, hd, hq, rfl⟩
    · exact Ends.fault ht ((both_eq_none hn).imp readAll_eq_none readTable_eq_none)
  | deriveKey =>
    refine requireTv_cases (fun ht => withOperands_cases (fun p hp => ?_) fun hn => ?_)
      fun ht => Ends.error .tableNotValid ⟨ht, by simp⟩
    · obtain ⟨hd, hq, rfl⟩ := file_and_table hp
      exact Ends.writes ⟨ht, hd, hq, rfl⟩
    · exact Ends.fault ht ((both_eq_none hn).imp readAll_eq_none readTable_eq_none)
  | segment len =>
    show Ends _ s (execSegment len s)
    by_cases hl : len = 32
    · subst hl
      rw [execSegment, if_neg (not_not.mpr rfl)]
      refine requireTv_cases (fun ht => withOperands_cases (fun p hp => ?_) fun hn => ?_)
        fun ht => Ends.error .tableNotValid ⟨ht, by simp⟩
      · obtain ⟨hd, hq, rfl⟩ := file_and_table hp
        exact Ends.writes ⟨rfl, ht, hd, hq, rfl⟩
      · exact Ends.fault ⟨rfl, ht⟩ ((both_eq_none hn).imp readAll_eq_none readTable_eq_none)
    · rw [execSegment, if_pos hl]
      exact Ends.error .invalidMessageLength ⟨len, rfl, hl⟩
  | encrypt =>
    refine withOperands_cases (fun p hp => ?_) fun hn =>
      Ends.fault trivial ((both_eq_none hn).imp readAll_eq_none readKeys_eq_none)
    obtain ⟨ha, hb⟩ := both_eq_some hp
    obtain ⟨hm, e1⟩ := readAll_eq_some ha
    obtain ⟨hk, e2⟩ := readKeys_eq_some hb
    rw [show p = (_, _) from Prod.ext e1 e2]
    exact Ends.writes ⟨hm, hk, rfl⟩
  | decrypt =>
    refine requireTv_cases (fun ht => withOperands_cases (fun p hp => ?_) fun hn => ?_)
      fun ht => Ends.error .tableNotValid ⟨ht, by simp⟩
    · obtain ⟨ha, hb⟩ := both_eq_some hp
      obtain ⟨hb, hc⟩ := both_eq_some hb
      obtain ⟨hd, e1⟩ := readAll_eq_some ha
      obtain ⟨hk, e2⟩ := readKeys_eq_some hb
      obtain ⟨hq, e3⟩ := readTable_eq_some hc
      rw [show p = (_, _, _) from Prod.ext e1 (Prod.ext e2 e3)]
      exact Ends.writes ⟨ht, hd, hk, hq, rfl⟩
    · exact Ends.fault ht ((both_eq_none hn).imp readAll_eq_none fun h =>
        (both_eq_none h).imp readKeys_eq_none readTable_eq_none)
  | expand =>
    refine withOperands_cases (fun w hw => ?_) fun hn => Ends.fault trivial (read_eq_none hn)
    obtain ⟨hd, rfl⟩ := read_eq_some hw
    exact Ends.writes ⟨hd, rfl⟩
  | subst =>
    refine withOperands_cases (fun p hp => ?_) fun hn =>
      Ends.fault trivial ((both_eq_none hn).imp read_eq_none read_eq_none)
    obtain ⟨ha, hb⟩ := both_eq_some hp
    obtain ⟨h0, e0⟩ := read_eq_some ha
    obtain ⟨h1, e1⟩ := read_eq_some hb
    rw [show p = (_, _) from Prod.ext e0 e1]
    exact Ends.writes ⟨h0, h1, rfl⟩

/-- The inversion law of `exec`. -/
theorem exec_cases {i : Instr} {s t : State} (h : exec i s = .next t) :
    (∃ e, Raises i s e ∧ t = complete e s) ∨
      (passesGate i s ∧ readsUndefined i s ∧ t = recordFault .unwrittenRead s) ∨
      ∃ s', Writes i s s' ∧ t = complete .ok s' := by
  rcases exec_ends i s with ⟨e, he, ho⟩ | ⟨hg, hu, ho⟩ | ⟨s', hw, ho⟩ <;> rw [h] at ho <;> injection ho with ho
  · exact .inl ⟨e, he, ho⟩
  · exact .inr (.inl ⟨hg, hu, ho⟩)
  · exact .inr (.inr ⟨s', hw, ho⟩)

/-- A command that ends with an error has not passed its error checks. -/
theorem Raises.not_passes {i : Instr} {s : State} {e : ErrCode} (h : Raises i s e) : ¬ passesGate i s := by
  cases e <;> simp only [Raises] at h
  · obtain ⟨len, rfl, hn⟩ := h; exact fun hp => hn hp.1
  · obtain ⟨ht, hi⟩ := h
    simp only [List.mem_cons, List.not_mem_nil, or_false] at hi
    rcases hi with rfl | rfl | rfl | rfl | rfl <;> simp [passesGate, ht]
  · obtain ⟨rfl, hr⟩ := h; exact fun hp => hp hr
  · obtain ⟨rfl, hm⟩ := h; exact fun hp => hp hm

/-- A command reports one error (60_exceptions.md R202). -/
theorem Raises.unique {i : Instr} {s : State} {e e' : ErrCode} (h : Raises i s e) (h' : Raises i s e') : e = e' := by
  cases i <;> cases e <;> cases e' <;> simp_all [Raises]

/-- A command that succeeds has passed its error checks and reads defined cells alone. -/
theorem Writes.passes {i : Instr} {s s' : State} (h : Writes i s s') : passesGate i s ∧ ¬ readsUndefined i s := by
  cases i with
  | nop => exact ⟨trivial, id⟩
  | gen => exact ⟨trivial, id⟩
  | invert => obtain ⟨hp, hb, -⟩ := h; exact ⟨(isBijection_of_marked hp).mp hb, not_not.mpr hp⟩
  | verify =>
    obtain ⟨hp, hq, hm, -⟩ := h
    exact ⟨(mutualInverse_of_marked hp hq).mp hm, by simp [readsUndefined, hp, hq]⟩
  | permFwd => obtain ⟨ht, hd, hp, -⟩ := h; exact ⟨ht, by simp [readsUndefined, hd, hp]⟩
  | permInv => obtain ⟨ht, hd, hp, -⟩ := h; exact ⟨ht, by simp [readsUndefined, hd, hp]⟩
  | deriveKey => obtain ⟨ht, hd, hp, -⟩ := h; exact ⟨ht, by simp [readsUndefined, hd, hp]⟩
  | segment len => obtain ⟨hl, ht, hd, hp, -⟩ := h; exact ⟨⟨hl, ht⟩, by simp [readsUndefined, hd, hp]⟩
  | encrypt => obtain ⟨hm, hk, -⟩ := h; exact ⟨trivial, by simp [readsUndefined, hm, hk]⟩
  | decrypt => obtain ⟨ht, hd, hk, hp, -⟩ := h; exact ⟨ht, by simp [readsUndefined, hd, hk, hp]⟩
  | expand => obtain ⟨hd, -⟩ := h; exact ⟨trivial, by simp [readsUndefined, hd]⟩
  | subst => obtain ⟨h0, h1, -⟩ := h; exact ⟨trivial, by simp [readsUndefined, h0, h1]⟩

/-- A command that raises an error completes with it and nothing else. -/
theorem exec_of_raises {i : Instr} {s : State} {e : ErrCode} (h : Raises i s e) : exec i s = .next (complete e s) := by
  rcases exec_ends i s with ⟨e', he, ho⟩ | ⟨hg, -, -⟩ | ⟨s', hw, -⟩
  · rw [ho, h.unique he]
  · exact absurd hg h.not_passes
  · exact absurd hw.passes.1 h.not_passes

/-- A command that passes its error checks and reads an undefined cell records the fault and nothing else. -/
theorem exec_of_undefined {i : Instr} {s : State} (hg : passesGate i s) (hu : readsUndefined i s) :
    exec i s = .next (recordFault .unwrittenRead s) := by
  rcases exec_ends i s with ⟨e, he, -⟩ | ⟨-, -, ho⟩ | ⟨s', hw, -⟩
  · exact absurd hg he.not_passes
  · exact ho
  · exact absurd hu hw.passes.2

/-- No command stops the machine: each answers a next state, from every state. -/
theorem exec_is_next (i : Instr) (s : State) : ∃ t, exec i s = .next t := by
  rcases exec_ends i s with ⟨e, _, ho⟩ | ⟨_, _, ho⟩ | ⟨s', _, ho⟩ <;> exact ⟨_, ho⟩

/-- No error is `OK`: a command that ends with an error has a nonzero code. -/
theorem codeOf_ne_zero {i : Instr} {s : State} {e : ErrCode} (h : Raises i s e) : codeOf e ≠ 0#4 := by
  cases e <;> first | exact h.elim | decide

/-- What no command writes: `DIN`, the fault record and the environment. -/
theorem Writes.untouched {i : Instr} {s s' : State} (h : Writes i s s') :
    s'.din = s.din ∧ s'.fault = s.fault ∧ s'.program = s.program ∧ s'.schedule = s.schedule ∧
      s'.readLog = s.readLog := by
  cases i with
  | nop => cases h; exact ⟨rfl, rfl, rfl, rfl, rfl⟩
  | gen => cases h; exact ⟨rfl, rfl, rfl, rfl, rfl⟩
  | invert => obtain ⟨_, _, rfl⟩ := h; exact ⟨rfl, rfl, rfl, rfl, rfl⟩
  | verify => obtain ⟨_, _, _, rfl⟩ := h; exact ⟨rfl, rfl, rfl, rfl, rfl⟩
  | permFwd => obtain ⟨_, _, _, rfl⟩ := h; exact ⟨rfl, rfl, rfl, rfl, rfl⟩
  | permInv => obtain ⟨_, _, _, rfl⟩ := h; exact ⟨rfl, rfl, rfl, rfl, rfl⟩
  | deriveKey => obtain ⟨_, _, _, rfl⟩ := h; exact ⟨rfl, rfl, rfl, rfl, rfl⟩
  | segment len => obtain ⟨_, _, _, _, rfl⟩ := h; exact ⟨rfl, rfl, rfl, rfl, rfl⟩
  | encrypt => obtain ⟨_, _, rfl⟩ := h; exact ⟨rfl, rfl, rfl, rfl, rfl⟩
  | decrypt => obtain ⟨_, _, _, _, rfl⟩ := h; exact ⟨rfl, rfl, rfl, rfl, rfl⟩
  | expand => obtain ⟨_, rfl⟩ := h; exact ⟨rfl, rfl, rfl, rfl, rfl⟩
  | subst => obtain ⟨_, _, rfl⟩ := h; exact ⟨rfl, rfl, rfl, rfl, rfl⟩

end Sys2Proof.Machine
end

