-- ==== Sys2Proof/Laws/Datapath.lean ====
section
/-! SUPPORT. One law per datapath primitive: its elements in sequence order, and what the inverse of a table is. -/

namespace Sys2Proof.Machine

/-- `apply(x, T)⟨i⟩ = x⟨T[i]⟩` on elements. -/
@[simp] theorem seqBit_applyTable (x : Block) (t : Table) (i : Fin 64) :
    seqBit (applyTable x t) i.val = seqBit x (t i).val := seqBit_ofSeq 64 _ i

/-- `E(r)⟨j⟩ = r⟨EXP[j]⟩` on elements. -/
@[simp] theorem seqBit_expander (e : ExpMap) (r : Word) (j : Fin 48) :
    seqBit (expander e r) j.val = seqBit r (e j).val := seqBit_ofSeq 48 _ j

/-- Element `k` of nibble `c` of the substituted word. -/
theorem seqBit_substitute (sbox : SboxRom) (x : Expanded) (c : Fin 8) (k : Fin 4) :
    seqBit (substitute sbox x) (4 * c.val + k.val) = seqBit (sbox c (sboxRow x c) (sboxCol x c)) k.val := by
  have h := seqBit_ofSeq 32 (fun i =>
    seqBit (sbox ⟨i.val / 4, by omega⟩ (sboxRow x ⟨i.val / 4, by omega⟩) (sboxCol x ⟨i.val / 4, by omega⟩))
      (i.val % 4)) ⟨4 * c.val + k.val, by omega⟩
  have hc : (⟨(4 * c.val + k.val) / 4, by omega⟩ : Fin 8) = c := Fin.ext (by simp; omega)
  have hk : (4 * c.val + k.val) % 4 = k.val := by omega
  simp only [hc, hk] at h
  exact h

/-- Whatever position the inverse of a table gives for a value that occurs, the table has that value there. -/
theorem apply_inverseOf {t : Table} {j : Fin 64} (h : ∃ i, t i = j) : t (inverseOf t j) = j := by
  obtain ⟨i, hi⟩ := h
  unfold inverseOf
  cases hf : (List.finRange 64).find? fun i => t i = j with
  | none =>
    have := List.find?_eq_none.mp hf i (List.mem_finRange i)
    simp [hi] at this
  | some k => simpa using List.find?_some hf

theorem isBijection_iff_injective (t : Table) : isBijection t ↔ Function.Injective t :=
  ⟨fun h i j he => by_contra fun hne => h i j hne he, fun h _ _ hne he => hne (h he)⟩

end Sys2Proof.Machine
end

