-- ==== Sys2Proof/Laws/HostBus.lean ====
section
/-! SUPPORT. The laws of the register window: the map is one to one, an address in the window has its offset, and what
a host access can do, said once. -/

namespace Sys2Proof.Machine

/-- Every register stands at its offset (20_memory.md R51). -/
theorem regAt_regOffset (r : Reg) : regAt (regOffset r) = some r := by
  cases r with
  | cmd => rfl
  | status => rfl
  | errcode => rfl
  | din j => revert j; decide
  | dout j => revert j; decide
  | ks j => revert j; decide
  | ms j => revert j; decide
  | pt i => revert i; decide
  | pti i => revert i; decide

theorem regOffset_lt (r : Reg) : regOffset r < 4096 := by
  cases r <;> simp only [regOffset] <;> omega

theorem regOffset_aligned (r : Reg) : regOffset r % 4 = 0 := by
  cases r <;> simp only [regOffset] <;> omega

/-- An address of the window has its offset; the window is 4096 bytes at `BASE` (R50). -/
theorem windowOffset_base {off : Nat} (h : off < 4096) : windowOffset (Config.base + off) = some off := by
  simp [windowOffset, h]

theorem windowOffset_outside {off : Nat} (h : ¬ off < 4096) : windowOffset (Config.base + off) = none := by
  simp [windowOffset, h]

@[simp] theorem windowOffset_regAddress (r : Reg) : windowOffset (regAddress r) = some (regOffset r) :=
  windowOffset_base (regOffset_lt r)

/-- An access to a register passes the first three checks (R52). -/
theorem checkOffset_regOffset (s : State) (isWrite : Bool) (r : Reg) :
    checkOffset s isWrite (regOffset r) 4 =
      if s.busy && !busyAllows isWrite r then .error .hostProtocol else .ok r := by
  simp [checkOffset, regOffset_aligned, regAt_regOffset]

/-- What a host write can do. -/
theorem hostAccess_write_cases (addr size : Nat) (v : Word) (s : State) :
    (∃ r, hostAccess (.write addr size v) s = recordFault r s) ∨
      ∃ reg, hostWrite s addr size v = .ok (writeReg v s reg) ∧
        hostAccess (.write addr size v) s = writeReg v s reg := by
  simp only [hostAccess, hostWrite, writeOffset]
  cases windowOffset addr with
  | none => exact .inl ⟨_, rfl⟩
  | some off =>
    cases hc : checkOffset s true off size with
    | error r => simp only [hc]; exact .inl ⟨_, rfl⟩
    | ok reg => simp only [hc]; exact .inr ⟨reg, rfl, rfl⟩

/-- What a host read can do: report a value, or record a fault. -/
theorem hostAccess_read_cases (addr size : Nat) (s : State) :
    (∃ r, hostRead s addr size = .error r ∧ hostAccess (.read addr size) s = recordFault r s) ∨
      ∃ v, hostRead s addr size = .ok v ∧
        hostAccess (.read addr size) s = { s with readLog := v :: s.readLog } := by
  simp only [hostAccess]
  cases h : hostRead s addr size with
  | error r => exact .inl ⟨r, rfl, rfl⟩
  | ok v => exact .inr ⟨v, rfl, rfl⟩

/-- A host write of a register the host may write now. -/
theorem hostAccess_write_reg {s : State} (r : Reg) (v : Word) (h : s.busy = false) :
    hostAccess (.write (regAddress r) 4 v) s = writeReg v s r := by
  simp [hostAccess, hostWrite, writeOffset, checkOffset_regOffset, h]

/-- A host read of a register the host may read now. -/
theorem hostRead_reg {s : State} (r : Reg) (h : s.busy = false ∨ busyAllows false r = true) :
    hostRead s (regAddress r) 4 = match readReg s r with
      | none => .error .unwrittenRead
      | some v => .ok v := by
  have hb : (s.busy && !busyAllows false r) = false := by rcases h with h | h <;> simp [h]
  cases hv : readReg s r <;> simp [hostRead, readOffset, checkOffset_regOffset, hb, hv]

/-- The `wait` poll always gets its answer. -/
theorem hostRead_status (s : State) : hostRead s (regAddress .status) 4 = .ok (statusWord s) := by
  rw [hostRead_reg .status (.inr (by decide))]
  rfl

/-- A busy engine faults every access but the two reads (R57). -/
theorem checkOffset_busy {s : State} {isWrite : Bool} {r : Reg} (hb : s.busy = true)
    (hr : busyAllows isWrite r = false) : checkOffset s isWrite (regOffset r) 4 = .error .hostProtocol := by
  simp [checkOffset_regOffset, hb, hr]

/-- A write to a busy engine faults, whatever the register (R57). -/
theorem hostAccess_write_busy {s : State} (r : Reg) (v : Word) (hb : s.busy = true) :
    hostAccess (.write (regAddress r) 4 v) s = recordFault .hostProtocol s := by
  simp [hostAccess, hostWrite, writeOffset, checkOffset_busy hb (show busyAllows true r = false from rfl)]

/-- Bit 0 of `STATUS` is `BUSY` (10_state.md R27). -/
@[simp] theorem statusWord_bit0 (s : State) : (statusWord s).getLsbD 0 = s.busy := by
  cases hb : s.busy <;> cases hd : s.done <;> cases he : s.err <;> cases ht : s.tv <;>
    simp only [statusWord, hb, hd, he, ht] <;> decide

end Sys2Proof.Machine
end

