-- ==== Sys2Proof/Laws/PerInstr.lean ====
section
/-! SUPPORT. The fields of a command's word, per command: the facts about syntax that the encoding claims rest on. -/

namespace Sys2Proof.Laws.EncodingFields

/-- The word of a well-formed command has its opcode, its length and nothing in `RSVD` (30_encoding.md R70), and the
opcode map gives the command back (R72). -/
def Statement (i : Instr) : Prop :=
  WellFormed i = true → opField (encode i) = opcodeOf i ∧ lenField (encode i) = lenOf i ∧ rsvdField (encode i) = 0 ∧
    commandOf (opcodeOf i) (lenOf i) = some i

theorem nop : Statement .nop := by unfold Statement; decide
theorem gen : Statement .gen := by unfold Statement; decide
theorem invert : Statement .invert := by unfold Statement; decide
theorem verify : Statement .verify := by unfold Statement; decide
theorem permFwd : Statement .permFwd := by unfold Statement; decide
theorem permInv : Statement .permInv := by unfold Statement; decide
theorem deriveKey : Statement .deriveKey := by unfold Statement; decide
theorem encrypt : Statement .encrypt := by unfold Statement; decide
theorem decrypt : Statement .decrypt := by unfold Statement; decide
theorem expand : Statement .expand := by unfold Statement; decide
theorem subst : Statement .subst := by unfold Statement; decide

theorem segment (len : Nat) : Statement (.segment len) := by
  intro h
  have hl : len < 256 := by simpa [WellFormed] using h
  have hall : ∀ n : Fin 256, opField (encode (.segment n.val)) = 7 ∧ lenField (encode (.segment n.val)) = n.val ∧
      rsvdField (encode (.segment n.val)) = 0 := by decide +kernel
  obtain ⟨h1, h2, h3⟩ := hall ⟨len, hl⟩
  exact ⟨h1, h2, h3, rfl⟩

end Sys2Proof.Laws.EncodingFields
end

