-- ==== Sys2Proof/Laws/State.lean ====
section
/-! SUPPORT. One lemma per field per update of the state, so that no later proof unfolds a record update. -/

namespace Sys2Proof.Machine

/-! ### `complete` -/

@[simp] theorem complete_din (e : ErrCode) (s : State) : (complete e s).din = s.din := rfl
@[simp] theorem complete_dout (e : ErrCode) (s : State) : (complete e s).dout = s.dout := rfl
@[simp] theorem complete_ks (e : ErrCode) (s : State) : (complete e s).ks = s.ks := rfl
@[simp] theorem complete_ms (e : ErrCode) (s : State) : (complete e s).ms = s.ms := rfl
@[simp] theorem complete_pt (e : ErrCode) (s : State) : (complete e s).pt = s.pt := rfl
@[simp] theorem complete_pti (e : ErrCode) (s : State) : (complete e s).pti = s.pti := rfl
@[simp] theorem complete_busy (e : ErrCode) (s : State) : (complete e s).busy = false := rfl
@[simp] theorem complete_done (e : ErrCode) (s : State) : (complete e s).done = true := rfl
@[simp] theorem complete_err (e : ErrCode) (s : State) : (complete e s).err = errFlag e := rfl
@[simp] theorem complete_tv (e : ErrCode) (s : State) : (complete e s).tv = s.tv := rfl
@[simp] theorem complete_errcode (e : ErrCode) (s : State) : (complete e s).errcode = codeOf e := rfl
@[simp] theorem complete_pend (e : ErrCode) (s : State) : (complete e s).pend = none := rfl
@[simp] theorem complete_fault (e : ErrCode) (s : State) : (complete e s).fault = s.fault := rfl
@[simp] theorem complete_draws (e : ErrCode) (s : State) : (complete e s).draws = s.draws := rfl
@[simp] theorem complete_program (e : ErrCode) (s : State) : (complete e s).program = s.program := rfl
@[simp] theorem complete_schedule (e : ErrCode) (s : State) : (complete e s).schedule = s.schedule := rfl
@[simp] theorem complete_readLog (e : ErrCode) (s : State) : (complete e s).readLog = s.readLog := rfl

/-! ### `accept` -/

@[simp] theorem accept_din (w : Word) (s : State) : (accept w s).din = s.din := rfl
@[simp] theorem accept_dout (w : Word) (s : State) : (accept w s).dout = s.dout := rfl
@[simp] theorem accept_ks (w : Word) (s : State) : (accept w s).ks = s.ks := rfl
@[simp] theorem accept_ms (w : Word) (s : State) : (accept w s).ms = s.ms := rfl
@[simp] theorem accept_pt (w : Word) (s : State) : (accept w s).pt = s.pt := rfl
@[simp] theorem accept_pti (w : Word) (s : State) : (accept w s).pti = s.pti := rfl
@[simp] theorem accept_busy (w : Word) (s : State) : (accept w s).busy = true := rfl
@[simp] theorem accept_done (w : Word) (s : State) : (accept w s).done = false := rfl
@[simp] theorem accept_err (w : Word) (s : State) : (accept w s).err = false := rfl
@[simp] theorem accept_tv (w : Word) (s : State) : (accept w s).tv = s.tv := rfl
@[simp] theorem accept_errcode (w : Word) (s : State) : (accept w s).errcode = 0#4 := rfl
@[simp] theorem accept_pend (w : Word) (s : State) : (accept w s).pend = some w := rfl
@[simp] theorem accept_fault (w : Word) (s : State) : (accept w s).fault = s.fault := rfl
@[simp] theorem accept_draws (w : Word) (s : State) : (accept w s).draws = s.draws := rfl
@[simp] theorem accept_program (w : Word) (s : State) : (accept w s).program = s.program := rfl
@[simp] theorem accept_schedule (w : Word) (s : State) : (accept w s).schedule = s.schedule := rfl
@[simp] theorem accept_readLog (w : Word) (s : State) : (accept w s).readLog = s.readLog := rfl

/-! ### `recordFault` -/

@[simp] theorem recordFault_din (r : Fault) (s : State) : (recordFault r s).din = s.din := rfl
@[simp] theorem recordFault_dout (r : Fault) (s : State) : (recordFault r s).dout = s.dout := rfl
@[simp] theorem recordFault_ks (r : Fault) (s : State) : (recordFault r s).ks = s.ks := rfl
@[simp] theorem recordFault_ms (r : Fault) (s : State) : (recordFault r s).ms = s.ms := rfl
@[simp] theorem recordFault_pt (r : Fault) (s : State) : (recordFault r s).pt = s.pt := rfl
@[simp] theorem recordFault_pti (r : Fault) (s : State) : (recordFault r s).pti = s.pti := rfl
@[simp] theorem recordFault_busy (r : Fault) (s : State) : (recordFault r s).busy = s.busy := rfl
@[simp] theorem recordFault_done (r : Fault) (s : State) : (recordFault r s).done = s.done := rfl
@[simp] theorem recordFault_err (r : Fault) (s : State) : (recordFault r s).err = s.err := rfl
@[simp] theorem recordFault_tv (r : Fault) (s : State) : (recordFault r s).tv = s.tv := rfl
@[simp] theorem recordFault_errcode (r : Fault) (s : State) : (recordFault r s).errcode = s.errcode := rfl
@[simp] theorem recordFault_pend (r : Fault) (s : State) : (recordFault r s).pend = s.pend := rfl
@[simp] theorem recordFault_fault (r : Fault) (s : State) : (recordFault r s).fault = some r := rfl
@[simp] theorem recordFault_draws (r : Fault) (s : State) : (recordFault r s).draws = s.draws := rfl
@[simp] theorem recordFault_program (r : Fault) (s : State) : (recordFault r s).program = s.program := rfl
@[simp] theorem recordFault_schedule (r : Fault) (s : State) : (recordFault r s).schedule = s.schedule := rfl
@[simp] theorem recordFault_readLog (r : Fault) (s : State) : (recordFault r s).readLog = s.readLog := rfl

/-! ### `popTurn` -/

@[simp] theorem popTurn_din (s : State) : (popTurn s).din = s.din := rfl
@[simp] theorem popTurn_dout (s : State) : (popTurn s).dout = s.dout := rfl
@[simp] theorem popTurn_ks (s : State) : (popTurn s).ks = s.ks := rfl
@[simp] theorem popTurn_ms (s : State) : (popTurn s).ms = s.ms := rfl
@[simp] theorem popTurn_pt (s : State) : (popTurn s).pt = s.pt := rfl
@[simp] theorem popTurn_pti (s : State) : (popTurn s).pti = s.pti := rfl
@[simp] theorem popTurn_busy (s : State) : (popTurn s).busy = s.busy := rfl
@[simp] theorem popTurn_done (s : State) : (popTurn s).done = s.done := rfl
@[simp] theorem popTurn_err (s : State) : (popTurn s).err = s.err := rfl
@[simp] theorem popTurn_tv (s : State) : (popTurn s).tv = s.tv := rfl
@[simp] theorem popTurn_errcode (s : State) : (popTurn s).errcode = s.errcode := rfl
@[simp] theorem popTurn_pend (s : State) : (popTurn s).pend = s.pend := rfl
@[simp] theorem popTurn_fault (s : State) : (popTurn s).fault = s.fault := rfl
@[simp] theorem popTurn_draws (s : State) : (popTurn s).draws = s.draws := rfl
@[simp] theorem popTurn_program (s : State) : (popTurn s).program = s.program := rfl
@[simp] theorem popTurn_schedule (s : State) : (popTurn s).schedule = s.schedule.tail := rfl
@[simp] theorem popTurn_readLog (s : State) : (popTurn s).readLog = s.readLog := rfl

/-! ### `resetEngine` -/

@[simp] theorem resetEngine_din (s : State) : (resetEngine s).din = State.reset.din := rfl
@[simp] theorem resetEngine_dout (s : State) : (resetEngine s).dout = State.reset.dout := rfl
@[simp] theorem resetEngine_ks (s : State) : (resetEngine s).ks = State.reset.ks := rfl
@[simp] theorem resetEngine_ms (s : State) : (resetEngine s).ms = State.reset.ms := rfl
@[simp] theorem resetEngine_pt (s : State) : (resetEngine s).pt = State.reset.pt := rfl
@[simp] theorem resetEngine_pti (s : State) : (resetEngine s).pti = State.reset.pti := rfl
@[simp] theorem resetEngine_busy (s : State) : (resetEngine s).busy = State.reset.busy := rfl
@[simp] theorem resetEngine_done (s : State) : (resetEngine s).done = State.reset.done := rfl
@[simp] theorem resetEngine_err (s : State) : (resetEngine s).err = State.reset.err := rfl
@[simp] theorem resetEngine_tv (s : State) : (resetEngine s).tv = State.reset.tv := rfl
@[simp] theorem resetEngine_errcode (s : State) : (resetEngine s).errcode = State.reset.errcode := rfl
@[simp] theorem resetEngine_pend (s : State) : (resetEngine s).pend = State.reset.pend := rfl
@[simp] theorem resetEngine_fault (s : State) : (resetEngine s).fault = State.reset.fault := rfl
@[simp] theorem resetEngine_draws (s : State) : (resetEngine s).draws = s.draws := rfl
@[simp] theorem resetEngine_program (s : State) : (resetEngine s).program = s.program := rfl
@[simp] theorem resetEngine_schedule (s : State) : (resetEngine s).schedule = s.schedule := rfl
@[simp] theorem resetEngine_readLog (s : State) : (resetEngine s).readLog = s.readLog := rfl

/-! ### `placeCommand` -/

@[simp] theorem placeCommand_din (w : Word) (s : State) : (placeCommand w s).din = s.din := rfl
@[simp] theorem placeCommand_dout (w : Word) (s : State) : (placeCommand w s).dout = s.dout := rfl
@[simp] theorem placeCommand_ks (w : Word) (s : State) : (placeCommand w s).ks = s.ks := rfl
@[simp] theorem placeCommand_ms (w : Word) (s : State) : (placeCommand w s).ms = s.ms := rfl
@[simp] theorem placeCommand_pt (w : Word) (s : State) : (placeCommand w s).pt = s.pt := rfl
@[simp] theorem placeCommand_pti (w : Word) (s : State) : (placeCommand w s).pti = s.pti := rfl
@[simp] theorem placeCommand_busy (w : Word) (s : State) : (placeCommand w s).busy = true := rfl
@[simp] theorem placeCommand_done (w : Word) (s : State) : (placeCommand w s).done = false := rfl
@[simp] theorem placeCommand_err (w : Word) (s : State) : (placeCommand w s).err = false := rfl
@[simp] theorem placeCommand_tv (w : Word) (s : State) : (placeCommand w s).tv = s.tv := rfl
@[simp] theorem placeCommand_errcode (w : Word) (s : State) : (placeCommand w s).errcode = 0#4 := rfl
@[simp] theorem placeCommand_pend (w : Word) (s : State) : (placeCommand w s).pend = some w := rfl
@[simp] theorem placeCommand_fault (w : Word) (s : State) : (placeCommand w s).fault = none := rfl
@[simp] theorem placeCommand_draws (w : Word) (s : State) : (placeCommand w s).draws = s.draws := rfl
@[simp] theorem placeCommand_program (w : Word) (s : State) : (placeCommand w s).program = s.program := rfl
@[simp] theorem placeCommand_schedule (w : Word) (s : State) : (placeCommand w s).schedule = Turn.engine :: s.schedule := rfl
@[simp] theorem placeCommand_readLog (w : Word) (s : State) : (placeCommand w s).readLog = s.readLog := rfl

end Sys2Proof.Machine
end

