-- ==== Sys2Proof/Laws/Step.lean ====
section
/-! SUPPORT. What a step can do, said once. -/

namespace Sys2Proof.Machine

/-- The inversion law of `step`: reset, the host's access, the engine's command, or nothing to do. -/
theorem step_cases {s t : State} (h : step s = .next t) :
    (s.schedule.head? = some .reset ∧ t = resetEngine (popTurn s)) ∨
    (s.schedule.head? ≠ some .reset ∧ s.fault = none ∧
      ((∃ op rest, s.program = op :: rest ∧ t = hostAccess op { popTurn s with program := rest }) ∨
       (∃ w, s.pend = some w ∧ ((∃ e, decode w = .error e ∧ t = complete e (popTurn s)) ∨
          ∃ i, decode w = .ok i ∧ exec i (popTurn s) = .next t)) ∨
       (s.pend = none ∧ s.program = [] ∧ t = popTurn s))) := by
  unfold step at h
  by_cases hr : s.schedule.head? = some .reset
  · rw [if_pos (by simp [resetDue, hr])] at h
    injection h with h
    exact .inl ⟨hr, h.symm⟩
  · rw [if_neg (by simp [resetDue, hr])] at h
    refine .inr ⟨hr, ?_⟩
    cases hf : s.fault with
    | some r => rw [hf] at h; cases h
    | none =>
      rw [hf] at h
      refine ⟨rfl, ?_⟩
      have hhost : (hostReady s = true) → .next (hostStep (popTurn s)) = (.next t : Host.Outcome State Fault Refusal) →
          ∃ op rest, s.program = op :: rest ∧ t = hostAccess op { popTurn s with program := rest } := by
        intro hh he
        injection he with he
        cases hp : s.program with
        | nil => simp [hostReady, hp] at hh
        | cons op rest =>
          refine ⟨op, rest, rfl, ?_⟩
          rw [← he, hostStep, popTurn_program, hp]
      have heng : (engineReady s = true) → engineStep (popTurn s) = .next t →
          ∃ w, s.pend = some w ∧ ((∃ e, decode w = .error e ∧ t = complete e (popTurn s)) ∨
            ∃ i, decode w = .ok i ∧ exec i (popTurn s) = .next t) := by
        intro hh he
        cases hp : s.pend with
        | none => simp [engineReady, hp] at hh
        | some w =>
          refine ⟨w, rfl, ?_⟩
          rw [engineStep, popTurn_pend, hp] at he
          cases hd : decode w with
          | error e =>
            simp only [hd, cmdError] at he
            injection he with he
            exact .inl ⟨e, rfl, he.symm⟩
          | ok i => simp only [hd] at he; exact .inr ⟨i, rfl, he⟩
      have hidle : hostReady s = false → engineReady s = false →
          .next (popTurn s) = (.next t : Host.Outcome State Fault Refusal) →
          s.pend = none ∧ s.program = [] ∧ t = popTurn s := by
        intro hh he hn
        injection hn with hn
        exact ⟨by simpa [engineReady] using he, by simpa [hostReady] using hh, hn.symm⟩
      simp only [agentStep, mover] at h
      cases hh : hostReady s <;> cases he : engineReady s <;> by_cases hs : s.schedule.head? = some .host <;>
        simp only [hh, he, hs, if_true, if_false, Bool.false_eq_true] at h
      all_goals first
        | exact .inr (.inr (hidle hh he h))
        | exact .inr (.inl (heng he h))
        | exact .inl (hhost hh h)

/-- A faulted state has no step of any agent. -/
theorem step_of_fault {s : State} {r : Fault} (hf : s.fault = some r) (hr : s.schedule.head? ≠ some .reset) :
    step s = .fault r := by
  rw [step, if_neg (by simp [resetDue, hr]), hf]

/-- The host's placing of a command word makes the next step the engine's, on that word. -/
theorem step_withFetchWord (s : State) (nbits w : Nat) :
    step (s.withFetchWord nbits w) =
      engineStep (popTurn (s.withFetchWord nbits w)) := by
  simp [step, State.withFetchWord, resetDue, agentStep, mover, engineReady]

end Sys2Proof.Machine
end

