-- ==== Sys2Proof/Tests/Slice0.lean ====
section
/-! SUPPORT. Tests of the model's author. Expected values come from spec/95_test_vectors.md (the section is named at each
test); the witnesses at the end meet the hypotheses of the statements. -/

namespace Sys2Proof.Tests

set_option Elab.async false

open Sys2Proof Sys2Proof.Machine Sys2Proof.Claims

/-! ### The reference configuration of 95_test_vectors.md section 2, for tests only -/

def refExp : ExpMap := ![31, 0, 1, 2, 3, 4, 3, 4, 5, 6, 7, 8, 7, 8, 9, 10, 11, 12, 11, 12, 13, 14, 15, 16, 15, 16, 17, 18, 19, 20, 19, 20, 21, 22, 23, 24, 23, 24, 25, 26, 27, 28, 27, 28, 29, 30, 31, 0]

/-- The rows of the reference S-boxes, one hexadecimal digit a column, first column first. -/
def refRows : Fin 8 → Fin 4 → BitVec 64 := ![
  ![0xE4D12FB83A6C5907, 0x0F74E2D1A6CB9538, 0x41E8D62BFC973A50, 0xFC8249175B3EA06D],
  ![0xF18E6B34972DC05A, 0x3D47F28EC01A69B5, 0x0E7BA4D158C6932F, 0xD8A13F42B67C05E9],
  ![0xA09E63F51DC7B428, 0xD709346A285ECBF1, 0xD6498F30B12C5AE7, 0x1AD069874FE3B52C],
  ![0x7DE3069A1285BC4F, 0xD8B56F03472C1AE9, 0xA690CB7DF13E5284, 0x3F06A1D8945BC72E],
  ![0x2C417AB6853FD0E9, 0xEB2C47D150FA3986, 0x421BAD78F9C5630E, 0xB8C71E2D6F09A453],
  ![0xC1AF92680D34E75B, 0xAF427C9561DE0B38, 0x9EF528C3704A1DB6, 0x432C95FABE17608D],
  ![0x4B2EF08D3C975A61, 0xD0B7491AE35C2F86, 0x14BDC37EAF680592, 0x6BD814A7950FE23C],
  ![0xD2846FB1A93E50C7, 0x1FD8A374C56B0E92, 0x7B419CE206ADF358, 0x21E74A8DFC90356B]]

def refSbox : SboxRom := fun c r k => (refRows c r).extractLsb' (60 - 4 * k.val) 4

def refF (r k : Word) : Word := roundF refExp refSbox r k

/-! ### States and observations -/

def identity : Table := id
def rot : Table := fun i => Fin.ofNat 64 (i.val + 1)
def rotInv : Table := fun i => Fin.ofNat 64 (i.val + 63)
def rev : Table := fun i => Fin.ofNat 64 (63 - i.val)
def mul : Table := fun i => Fin.ofNat 64 (5 * i.val + 3)
def mulInv : Table := fun i => Fin.ofNat 64 (13 * i.val + 25)

/-- `ID` but for entry 63 (3.3). -/
def almostIdentity : Table := fun i => if i = 63 then 0 else i

def digest : Segments := ![0xFB98D44A, 0xD7501A95, 0x9F3F4F4A, 0x3F004FE2, 0xD9E581EA, 0x6207E218, 0xC4B02C08, 0xA4D75ADF]
def plaintext : Segments :=
  ![0x30313233, 0x34353637, 0x38394142, 0x43444546, 0x30313233, 0x34353637, 0x38394142, 0x43444546]
def sample : Segments := ![0x01234567, 0x89ABCDEF, 0x80000000, 0, 0, 1, 0xFFFFFFFF, 0]
def messageE1 : Segments := ![0, 0x12345678, 0xFFFFFFFF, 0, 0xDEADBEEF, 0xCAFEBABE, 0x01234567, 0x89ABCDEF]
def keysE1 : Fin 4 → Word := ![0x12345678, 0, 0xFFFFFFFF, 0x0F0F0F0F]
def cipherE1 : Segments :=
  ![0x12345678, 0xEFA72C4D, 0, 0x1058D3B2, 0xCAFEBABE, 0x5A701C2D, 0x89ABCDEF, 0x39E59106]

/-- Reset, with a table in `PT`. -/
def withPt (t : Table) : State := { State.reset with pt := storeTable t }

/-- Reset, with both tables. -/
def withTables (t u : Table) : State := { State.reset with pt := storeTable t, pti := storeTable u }

/-- `s` with entry 17 of `PT` not written. -/
def without17 (s : State) : State := { s with pt := s.pt.set 17 (Cell.atReset 6) }

/-- Reset, with a verified pair of tables and words in `DIN`. -/
def loaded (t u : Table) (w : Segments) : State := { withTables t u with tv := true, din := storeAll w }

/-- Every cell defined, the tables verified, the last command done. -/
def ready : State :=
  { State.reset with
    din := storeAll digest, dout := storeAll plaintext, ks := storeAll digest, ms := storeAll plaintext
    pt := storeTable mul, pti := storeTable mulInv, tv := true, done := true }

/-- `s` with the command word `w` accepted. -/
def pending (w : Word) (s : State) : State := accept w s

/-- `s` with one access for the host to make, on its turn. -/
def hosting (op : HostOp) (s : State) : State := { s with program := [op], schedule := [.host] }

/-- What is seen of a next state. -/
def seen {α : Type} (f : State → α) : Host.Outcome State Fault Refusal → Option α
  | .next t => some (f t)
  | .fault _ => none
  | .refused _ => none

/-- `STATUS`, `ERRCODE` and `FAULT`. -/
def flags (s : State) : Word × Word × Option Fault := (statusWord s, errcodeWord s, s.fault)

/-- What the host would read from a file. -/
def words (v : RegFile) : List (Option Word) := (List.finRange 8).map fun j => (v.get j).read

/-- The words, all of them defined. -/
def all (w : Segments) : List (Option Word) := (List.finRange 8).map fun j => some (w j)

/-! ### WellFormed and the reading of the expansion map -/

theorem test_wellFormed_refuses_long_segment : WellFormed (.segment 256) = false := by decide
theorem test_wellFormed_accepts_segment_255 : WellFormed (.segment 255) = true := by decide
theorem test_expMapCovers_refuses_constant_map : expMapCovers (fun _ => 0) = false := by decide +kernel
theorem test_expMapCovers_accepts_reference : expMapCovers refExp = true := by decide +kernel

/-! ### Decoding: words written out from the table of 30_encoding.md R70, `RSVD ++ LEN ++ OP` -/

theorem test_decode_nop : decode 0b00000000000000000000000000000000#32 = .ok .nop := rfl
theorem test_decode_gen : decode 0b00000000000000000000000000000001#32 = .ok .gen := rfl
theorem test_decode_invert : decode 0b00000000000000000000000000000010#32 = .ok .invert := rfl
theorem test_decode_verify : decode 0b00000000000000000000000000000011#32 = .ok .verify := rfl
theorem test_decode_permFwd : decode 0b00000000000000000000000000000100#32 = .ok .permFwd := rfl
theorem test_decode_permInv : decode 0b00000000000000000000000000000101#32 = .ok .permInv := rfl
theorem test_decode_deriveKey : decode 0b00000000000000000000000000000110#32 = .ok .deriveKey := rfl
theorem test_decode_segment : decode 0b00000000000000000010000000000111#32 = .ok (.segment 32) := rfl
theorem test_decode_encrypt : decode 0b00000000000000000000000000001000#32 = .ok .encrypt := rfl
theorem test_decode_decrypt : decode 0b00000000000000000000000000001001#32 = .ok .decrypt := rfl
theorem test_decode_expand : decode 0b00000000000000000000000000001010#32 = .ok .expand := rfl
theorem test_decode_subst : decode 0b00000000000000000000000000001011#32 = .ok .subst := rfl

/-- 3.9: opcode before reserved. -/
theorem test_decode_illegal :
    decode 0x0000000C = .error .illegalOpcode ∧ decode 0x000000FF = .error .illegalOpcode ∧
    decode 0x0001000C = .error .illegalOpcode := ⟨rfl, rfl, rfl⟩

/-- 3.9: reserved before length. -/
theorem test_decode_reserved :
    decode 0x00010000 = .error .reservedField ∧ decode 0x00002000 = .error .reservedField ∧
    decode 0x00002008 = .error .reservedField ∧ decode 0x80002007 = .error .reservedField := ⟨rfl, rfl, rfl, rfl⟩

theorem test_decodeTableWord_segment : decodeTableWord 32 0x2007 = some (.segment 32) := by decide +kernel
theorem test_withFetchWord_nop :
    seen flags (step (State.reset.withFetchWord 32 0)) = some (0x2, 0, none) := by decide +kernel

/-! ### Commands -/

/-- 3.9: NOP clears the last error and keeps TV. -/
theorem test_nop_clears_the_error :
    seen flags (exec .nop { ready with err := true, errcode := 3 }) = some (0xA, 0, none) := by decide +kernel

theorem test_gen_stores_the_draw (i : Fin 64) :
    seen (fun t => tableOf t.pt i) (exec .gen State.reset) = some (Config.genDraw 0 i) := by
  simp only [seen, exec, execGen, finish, complete, tableOf, storeTable, get_storeAll, written_value]
  exact congrArg some (entryIndex_indexEntry _)

theorem test_gen_flags : seen flags (exec .gen State.reset) = some (0xA, 0, none) := rfl

/-- 3.3. -/
theorem test_invert_mul :
    seen (fun t => ([t.pti.get 0, t.pti.get 3, t.pti.get 63], flags t)) (exec .invert (withPt mul)) =
      some ([Cell.written 25, Cell.written 0, Cell.written 12], 0xA, 0, none) := by decide +kernel

/-- 3.3: entries 0 and 63 are equal; entry 17 is never written; and both, where the error comes first (R202). -/
theorem test_invert_errors :
    seen (fun t => ((t.pti.get 0).marked, flags t)) (exec .invert (withPt almostIdentity)) =
      some (false, 0x6, 5, none) ∧
    seen flags (exec .invert (without17 (withPt identity))) = some (0, 0, some .unwrittenRead) ∧
    seen flags (exec .invert (without17 (withPt almostIdentity))) = some (0x6, 5, none) := by decide +kernel

/-- 3.3: mismatch at entry 0, with entry 17 of `PT` not written too (R202); without a mismatch that entry faults. -/
theorem test_verify_errors :
    seen flags (exec .verify (withTables mul mul)) = some (0x6, 6, none) ∧
    seen flags (exec .verify (without17 (withTables mul mul))) = some (0x6, 6, none) ∧
    seen flags (exec .verify (without17 (withTables mul mulInv))) = some (0, 0, some .unwrittenRead) := by decide +kernel

/-- 3.3: the swapped pair. -/
theorem test_verify_swapped : seen flags (exec .verify (withTables mulInv mul)) = some (0xA, 0, none) := by decide +kernel

/-- 3.2, tables MUL and ROT. -/
theorem test_permFwd_mul :
    seen (fun t => (words t.dout).take 2) (exec .permFwd (loaded mul mulInv sample)) =
      some [some 0x08792E1B, some 0x4C3D6A5F] := by decide +kernel

theorem test_permFwd_rot :
    seen (fun t => words t.dout) (exec .permFwd (loaded rot rotInv sample)) =
      some (all ![0x02468ACF, 0x13579BDE, 0, 1, 0, 2, 0xFFFFFFFE, 1]) := by decide +kernel

theorem test_permInv_mul :
    seen (fun t => (words t.dout).take 4) (exec .permInv (loaded mul mulInv sample)) =
      some [some 0x875A0ED3, some 0x964B1FC2, some 0x10000000, some 0] := by decide +kernel

/-- 3.2: refused under TV = 0. -/
theorem test_permInv_refused :
    seen (fun t => (words t.dout, flags t)) (exec .permInv { ready with tv := false }) =
      some (all plaintext, 0x6, 4, none) := by decide +kernel

/-- 3.4, M5 and M2. -/
theorem test_deriveKey_mul :
    seen (fun t => words t.ks) (exec .deriveKey (loaded mul mulInv digest)) =
      some (all ![0xC5A48F43, 0xAFE51E7F, 0x8132FB64, 0x8B8C49A7, 0xEEA6405B, 0x56500874, 0x34891388, 0x6743F3EF]) := by
  decide +kernel

theorem test_deriveKey_rev :
    seen (fun t => words t.ks) (exec .deriveKey (loaded rev rev ![0, 1, 2, 3, 4, 5, 6, 7])) =
      some (all ![0x40000000, 0, 0xC0000000, 0x80000000, 0x60000000, 0x20000000, 0xE0000000, 0xA0000000]) := by
  decide +kernel

/-- 3.4, M7 and M11. -/
theorem test_segment_mul :
    seen (fun t => words t.ms) (exec (.segment 32) (loaded mul mulInv plaintext)) =
      some (all ![0x90809619, 0x889C119B, 0xB320AA39, 0x28BA3183, 0x90809619, 0x889C119B, 0xB320AA39, 0x28BA3183]) := by
  decide +kernel

theorem test_segment_length_first :
    seen flags (exec (.segment 31) State.reset) = some (0x6, 3, none) := by decide +kernel

/-- 3.8, E5: `KS[3]` not written. -/
theorem test_encrypt_undefined_key :
    seen flags (exec .encrypt { ready with ks := ready.ks.set 3 (Cell.atReset 32) }) =
      some (0xA, 0, some .unwrittenRead) := by decide +kernel

/-- 3.8, E5 and E4: with `KS[0]` alone not written, and TV = 0, it succeeds. -/
theorem test_encrypt_even_key_undefined :
    seen flags (exec .encrypt { ready with ks := ready.ks.set 0 (Cell.atReset 32), tv := false }) =
      some (0x2, 0, none) := by decide +kernel

/-- 3.8, E4. -/
theorem test_decrypt_refused : seen flags (exec .decrypt { ready with tv := false }) = some (0x6, 4, none) := by
  decide +kernel

/-- R171: it writes all of `DOUT`. -/
theorem test_decrypt_completes :
    seen (fun t => (t.dout.map (·.marked), flags t))
      (exec .decrypt { loaded mul mulInv digest with ks := storeAll digest }) =
      some (Vector.replicate 8 true, 0xA, 0, none) := by decide +kernel

/-- R160: `DIN[0]` alone is read, and `DOUT[2]` keeps its value. -/
theorem test_expand_keeps_the_rest :
    seen (fun t => (t.dout.get 2, flags t))
      (exec .expand { ready with din := ready.din.set 1 (Cell.atReset 32) }) =
      some (Cell.written 0x38394142, 0xA, 0, none) := by decide +kernel

theorem test_subst_undefined_operand :
    seen flags (exec .subst { ready with din := ready.din.set 1 (Cell.atReset 32) }) =
      some (0xA, 0, some .unwrittenRead) := by decide +kernel

/-! ### The datapath under the reference ROMs -/

/-- 3.5. -/
theorem test_expander_reference :
    expander refExp 0x12345678 = 0x0A41A82AC3F0#48 ∧ expander refExp 1 = 0x800000000002#48 := by decide +kernel

/-- 3.6. -/
theorem test_substitute_reference :
    substitute refSbox (substInput 0x00001234 0x56789ABC) = 0xD8259735 ∧
    substitute refSbox (substInput 0xFFFF0400 0) = 0x0FA72C4D := by decide +kernel

/-- 3.7. -/
theorem test_round_reference : refF 0xDEADBEEF 0x01234567 = 0x594E679C := by decide +kernel

/-- 3.8, E1. -/
theorem test_encryptLanes_reference : encryptLanes refF messageE1 keysE1 = cipherE1 := by
  funext j; revert j; decide +kernel

/-- 3.8, E1-dec with `MUL`. -/
theorem test_decryptLanes_reference :
    decryptLanes refF cipherE1 keysE1 mulInv =
      ![0x60084420, 0x9CE739CE, 0x8C212080, 0x6318C631, 0xFD93FD7F, 0x875A0ED3, 0x7DF95D55, 0x964B1FC2] := by
  funext j; revert j; decide +kernel

/-- 3.1: bytes "0123" pack big-endian, and element 2 of the sequence is 1. -/
theorem test_packBytes :
    packBytes (fun k => 0x30 + BitVec.ofNat 8 k.val) 0 = 0x30313233 ∧ messageBit plaintext 2 = true := by decide +kernel

/-! ### Host accesses (3.10) -/

theorem test_host_read_checks :
    readOffset State.reset 0x004 4 = .ok 0 ∧ readOffset State.reset 0x060 4 = .error .unwrittenRead ∧
    readOffset State.reset 0x006 4 = .error .busError ∧ readOffset State.reset 0x040 2 = .error .busError ∧
    readOffset State.reset 0x0C0 4 = .error .busError ∧ readOffset State.reset 0x000 4 = .ok 0 := by
  refine ⟨?_, ?_, ?_, ?_, ?_, ?_⟩ <;> rfl

theorem test_host_read_while_busy :
    readOffset (pending 0 ready) 0x008 4 = .ok 0 ∧ readOffset (pending 0 ready) 0x040 4 = .error .hostProtocol := ⟨rfl, rfl⟩

theorem test_host_table_write :
    (writeOffset ready 0x100 4 0xFFFFFFC5).map (fun t => (t.pt.get 0, t.tv)) = .ok (Cell.written 5, false) := rfl

/-- R80 and R56: `ldtab` takes a value of 64 or more, and the entry is its low six bits. -/
theorem test_ldtab_wide_value :
    (ldtab .pt fun _ => 0xFFFFFFC5).take 1 = [.write (regAddress (.pt 0)) 4 0xFFFFFFC5] ∧
    (writeReg 0xFFFFFFC5 ready (.pt 0)).pt.get 0 = Cell.written 5 := ⟨rfl, by decide +kernel⟩

theorem test_host_write_ignored_or_faulting :
    writeOffset ready 0x060 4 1 = .ok ready ∧ writeOffset (pending 0 ready) 0x040 4 1 = .error .hostProtocol := ⟨rfl, rfl⟩

/-! ### The two runs of program P5 (section 4) -/

/-- `cmd NOP` and `sw DIN0, 1`, under a given order of the agents. -/
def programP5 (order : List Turn) : State :=
  { State.reset with program := cmd .nop ++ sw (.din 0) 1, schedule := order }

theorem test_P5_engine_first :
    seen (fun t => (t.din.get 0, flags t)) (core.run 3 (programP5 [.host, .engine, .host])) =
      some (Cell.written 1, 0x2, 0, none) := by
  simp [core, Host.Core.run, step, programP5, resetDue, agentStep, mover, hostReady, engineReady, cmd, sw, popTurn,
    hostStep, State.reset, engineStep, hostAccess_write_reg, writeReg, accept, seen, flags, encode, lenOf, opcodeOf,
    exec, execNop, finish, complete, storeAt, codeOf, errFlag, show decode 0#32 = .ok .nop from rfl]
  decide

theorem test_P5_host_first :
    seen flags (core.run 2 (programP5 [.host, .host])) = some (0x1, 0, some .hostProtocol) := by
  simp [core, Host.Core.run, step, programP5, resetDue, agentStep, mover, hostReady, cmd, sw, popTurn, hostStep,
    State.reset, hostAccess_write_reg, hostAccess_write_busy, writeReg, accept, seen, flags, recordFault]
  decide

/-! ### Witnesses: for each statement with hypotheses, a concrete state and operands that meet them -/

theorem ready_marked :
    allMarked ready.din ∧ allMarked ready.dout ∧ allMarked ready.ks ∧ allMarked ready.ms ∧ allMarked ready.pt ∧
      allMarked ready.pti :=
  ⟨allMarked_storeAll _, allMarked_storeAll _, allMarked_storeAll _, allMarked_storeAll _, allMarked_storeAll _,
    allMarked_storeAll _⟩

theorem ready_oddMarked : oddMarked ready.ks := fun l => ready_marked.2.2.1 (oddIdx l)

theorem ready_tables : TablesValid ready :=
  ⟨ready_marked.2.2.2.2.1, ready_marked.2.2.2.2.2, by decide +kernel⟩

theorem ready_inv : Inv ready where
  pendBusy := rfl
  errCode := rfl
  codeLegal := by decide
  busyClear := nofun
  errDone := nofun
  tables := fun _ => ready_tables
  canonical := ⟨canonical_storeAll _, canonical_storeAll _, canonical_storeAll _, canonical_storeAll _,
    canonical_storeAll _, canonical_storeAll _⟩

theorem pending_inv (w : Word) : Inv (pending w ready) where
  pendBusy := rfl
  errCode := rfl
  codeLegal := show (0#4).toNat ≤ 6 by decide
  busyClear := fun _ => ⟨rfl, rfl⟩
  errDone := nofun
  tables := fun _ => ready_tables
  canonical := ready_inv.canonical

theorem pending_turn (w : Word) {s : State} (hf : s.fault = none) (hs : s.schedule = []) :
    EngineTurn (pending w s) w := ⟨hf, rfl, .inl hs⟩

theorem hosting_turn (op : HostOp) {s : State} (hf : s.fault = none) : HostTurn (hosting op s) op [] :=
  ⟨hf, rfl, .inl ⟨[], rfl⟩⟩

theorem witness_DecodeOfEncodeIsTheCommand : WellFormed (.segment 255) = true := by decide

theorem witness_EncodeOfDecodedWordIsTheWord : decode 0x0000FF07#32 = .ok (.segment 255) := rfl

/-- One word for each clause, at its boundary. -/
theorem witness_DecoderClassifiesEveryWord :
    0x0B < (0x0000000C#32).toNat % 256 ∧
    ((0x0001000B#32).toNat % 256 ≤ 0x0B ∧ (0x0001000B#32).toNat / 65536 ≠ 0) ∧
    ((0x0000010B#32).toNat % 256 ≤ 0x0B ∧ (0x0000010B#32).toNat / 65536 = 0 ∧ (0x0000010B#32).toNat % 256 ≠ 0x07 ∧
      (0x0000010B#32).toNat / 256 % 256 ≠ 0) ∧
    ((0x0000FF07#32).toNat % 256 = 0x07 ∧ (0x0000FF07#32).toNat / 65536 = 0) ∧
    ((0x0000000B#32).toNat % 256 ≤ 0x0B ∧ (0x0000000B#32).toNat / 65536 = 0 ∧ (0x0000000B#32).toNat / 256 % 256 = 0) := by
  decide

/-- The three schedules under which the engine moves. -/
theorem witness_StepRunsThePendingCommand :
    (EngineTurn (pending 0x2007 ready) 0x2007 ∧
      EngineTurn { pending 0x2007 ready with schedule := [.engine] } 0x2007 ∧
      EngineTurn { pending 0x2007 ready with schedule := [.host] } 0x2007) ∧ decode 0x2007 = .ok (.segment 32) :=
  ⟨⟨pending_turn _ rfl rfl, ⟨rfl, rfl, .inr (.inl ⟨[], rfl⟩)⟩, ⟨rfl, rfl, .inr (.inr ⟨rfl, [], rfl⟩)⟩⟩, rfl⟩

/-- The three schedules under which the host moves. -/
theorem witness_StepMakesTheHostAccess :
    HostTurn (hosting .wait ready) .wait [] ∧ HostTurn { ready with program := [.wait] } .wait [] ∧
      HostTurn { ready with program := [.wait], schedule := [.engine] } .wait [] :=
  ⟨hosting_turn _ rfl, ⟨rfl, rfl, .inr ⟨rfl, .inl rfl⟩⟩, ⟨rfl, rfl, .inr ⟨rfl, .inr ⟨[], rfl⟩⟩⟩⟩

theorem witness_CmdWriteIssuesTheWord :
    HostTurn (hosting (.write (Config.base + 0x000) 4 0x2007) ready) (.write (Config.base + 0x000) 4 0x2007) [] ∧
      (hosting (.write (Config.base + 0x000) 4 0x2007) ready).busy = false := ⟨hosting_turn _ rfl, rfl⟩

theorem witness_IssuedCommandRunsOnTheStateLeft :
    ∃ (s : State) (w : Word) (i : Instr) (rest : List HostOp) (later : List Turn),
      s.fault = none ∧ s.busy = false ∧ s.program = .write (Config.base + 0x000) 4 w :: rest ∧
      s.schedule = .host :: .engine :: later ∧ decode w = .ok i :=
  ⟨{ ready with program := [.write (Config.base + 0x000) 4 0x8], schedule := [.host, .engine] }, 0x8, .encrypt, [], [],
    rfl, rfl, rfl, rfl, rfl⟩

/-- Entries 0 and 63 are equal, with entry 17 not written. -/
theorem almostIdentity_repeats : tableRepeats (without17 (withPt almostIdentity)).pt :=
  ⟨0, 63, by decide, by decide +kernel, by decide +kernel, by decide +kernel⟩

theorem mul_mul_mismatch : tablesMismatch (without17 (withTables mul mul)).pt (without17 (withTables mul mul)).pti :=
  .inr (.inr (.inl ⟨0, by decide +kernel, by decide +kernel, by decide +kernel⟩))

theorem identity17_no_repeat : ¬ tableRepeats (without17 (withPt identity)).pt := by
  rw [← repeats_known]
  decide +kernel

theorem mul17_no_mismatch :
    ¬ tablesMismatch (without17 (withTables mul mulInv)).pt (without17 (withTables mul mulInv)).pti := by
  rw [← mismatched_known]
  decide +kernel

theorem without17_unmarked (s : State) : ¬ allMarked (without17 s).pt := fun h => by
  have e : (without17 s).pt.get 17 = Cell.atReset 6 := Vector.getElem_set_self (xs := s.pt) (i := 17) (by decide)
  exact absurd (h 17) (by rw [e]; decide)

/-- One word for each clause; the lengths 31 and 33 on both sides of 32. -/
theorem witness_ErrorsComeInOrder :
    (EngineTurn (pending 0x0C ready) 0x0C ∧ 0x0B < (0x0C#32).toNat % 256) ∧
    (EngineTurn (pending 0x0001000B ready) 0x0001000B ∧ (0x0001000B#32).toNat % 256 ≤ 0x0B ∧
      (0x0001000B#32).toNat / 65536 ≠ 0) ∧
    (EngineTurn (pending 0x00001F07 ready) 0x00001F07 ∧ (0x00001F07#32).toNat / 256 % 256 = 31) ∧
    (EngineTurn (pending 0x00002107 ready) 0x00002107 ∧ (0x00002107#32).toNat / 256 % 256 = 33) ∧
    (EngineTurn (pending 0x00002007 State.reset) 0x00002007 ∧ (pending 0x00002007 State.reset).tv = false) ∧
    (EngineTurn (pending 0x2 (without17 (withPt almostIdentity))) 0x2 ∧
      tableRepeats (without17 (withPt almostIdentity)).pt) ∧
    (EngineTurn (pending 0x3 (without17 (withTables mul mul))) 0x3 ∧
      tablesMismatch (without17 (withTables mul mul)).pt (without17 (withTables mul mul)).pti) :=
  ⟨⟨pending_turn _ rfl rfl, by decide⟩, ⟨pending_turn _ rfl rfl, by decide, by decide⟩,
    ⟨pending_turn _ rfl rfl, by decide⟩, ⟨pending_turn _ rfl rfl, by decide⟩, ⟨pending_turn _ rfl rfl, rfl⟩,
    ⟨pending_turn _ rfl rfl, almostIdentity_repeats⟩, ⟨pending_turn _ rfl rfl, mul_mul_mismatch⟩⟩

theorem witness_LengthFieldIsChecked :
    (EngineTurn (pending 0x00001F07 ready) 0x00001F07 ∧ (0x00001F07#32).toNat / 256 % 256 = 31) ∧
    (EngineTurn (pending 0x00002107 ready) 0x00002107 ∧ (0x00002107#32).toNat / 256 % 256 = 33) ∧
    (EngineTurn (pending 0x00002007 ready) 0x00002007 ∧ (0x00002007#32).toNat / 256 % 256 = 32) ∧
    (EngineTurn (pending 0x0000010B ready) 0x0000010B ∧ (0x0000010B#32).toNat / 256 % 256 = 1) :=
  ⟨⟨pending_turn _ rfl rfl, by decide⟩, ⟨pending_turn _ rfl rfl, by decide⟩, ⟨pending_turn _ rfl rfl, by decide⟩,
    ⟨pending_turn _ rfl rfl, by decide⟩⟩

theorem witness_ErrorsAreAllOrNothing :
    ∃ (i : Instr) (s t : State), s.fault = none ∧ exec i s = .next t ∧ t.fault = none ∧ t.errcode ≠ 0#4 :=
  ⟨.permFwd, State.reset, complete .tableNotValid State.reset, rfl, rfl, rfl, by decide⟩

theorem witness_FaultIsStickyAndChangesNothingElse :
    (∃ (i : Instr) (s t : State), exec i s = .next t ∧ t.fault ≠ s.fault) ∧
    (∃ (op : HostOp) (s : State), (hostAccess op s).fault ≠ s.fault) ∧
    (∃ (s : State) (r : Fault), s.fault = some r ∧ s.schedule.head? ≠ some .reset) ∧
    (∃ s t : State, s.fault ≠ none ∧ step s = .next t) :=
  ⟨⟨.expand, State.reset, recordFault .unwrittenRead State.reset, rfl, by decide⟩,
    ⟨.write (regAddress (.din 0)) 4 1, pending 0 ready, by rw [hostAccess_write_busy (.din 0) 1 rfl]; decide⟩,
    ⟨recordFault .busError ready, .busError, rfl, by decide⟩,
    ⟨{ recordFault .busError ready with schedule := [.reset] }, _, by decide, rfl⟩⟩

theorem witness_UndefinedOperandFaults :
    (State.reset.fault = none ∧ passesGate .expand State.reset ∧ readsUndefined .expand State.reset) ∧
    ∃ t, exec .expand State.reset = .next t ∧ t.fault ≠ none :=
  ⟨⟨rfl, trivial, rfl⟩, recordFault .unwrittenRead State.reset, rfl, by decide⟩

/-- The three clauses: the table `MUL`; entries 0 and 63 equal with entry 17 not written; `ID` with entry 17 not written. -/
theorem witness_InvertWritesTheInverse :
    (allMarked ready.pt ∧ Function.Injective (tableOf ready.pt)) ∧
    (∃ i j, i ≠ j ∧ ((without17 (withPt almostIdentity)).pt.get i).marked = true ∧
      ((without17 (withPt almostIdentity)).pt.get j).marked = true ∧
      tableOf (without17 (withPt almostIdentity)).pt i = tableOf (without17 (withPt almostIdentity)).pt j) ∧
    (¬ allMarked (without17 (withPt identity)).pt ∧ ¬ tableRepeats (without17 (withPt identity)).pt) :=
  ⟨⟨ready_marked.2.2.2.2.1, Function.LeftInverse.injective ready_tables.2.2⟩, almostIdentity_repeats,
    without17_unmarked _, identity17_no_repeat⟩

theorem witness_VerifyAcceptsMutualInverses :
    (allMarked ready.pt ∧ allMarked ready.pti ∧ ∀ i, tableOf ready.pti (tableOf ready.pt i) = i) ∧
    (((withTables mul mul).pt.get 0).marked = true ∧
      ((withTables mul mul).pti.get (tableOf (withTables mul mul).pt 0)).marked = true ∧
      tableOf (withTables mul mul).pti (tableOf (withTables mul mul).pt 0) ≠ 0) ∧
    tablesMismatch (without17 (withTables mul mul)).pt (without17 (withTables mul mul)).pti ∧
    (¬ (allMarked (without17 (withTables mul mulInv)).pt ∧ allMarked (without17 (withTables mul mulInv)).pti) ∧
      ¬ tablesMismatch (without17 (withTables mul mulInv)).pt (without17 (withTables mul mulInv)).pti) :=
  ⟨ready_tables, ⟨by decide +kernel, by decide +kernel, by decide +kernel⟩, mul_mul_mismatch,
    fun h => without17_unmarked _ h.1, mul17_no_mismatch⟩

/-- Both sides of each equivalence occur: a partly defined table that is refused, and one that some values would complete. -/
theorem witness_TableErrorsAreForcedByTheDefinedEntries :
    (without17 (withPt almostIdentity)).fault = none ∧
    exec .invert (without17 (withPt almostIdentity)) = .next (ends 5#4 (without17 (withPt almostIdentity))) ∧
    exec .verify (without17 (withTables mul mul)) = .next (ends 6#4 (without17 (withTables mul mul))) ∧
    exec .invert (without17 (withPt identity)) ≠ .next (ends 5#4 (without17 (withPt identity))) :=
  ⟨rfl, exec_of_raises (e := .tableNotBijection) ⟨rfl, almostIdentity_repeats⟩,
    exec_of_raises (e := .tableMismatch) ⟨rfl, mul_mul_mismatch⟩, by
      rw [exec_of_undefined (i := .invert) identity17_no_repeat (without17_unmarked _)]
      intro h
      injection h with h
      exact absurd (congrArg State.fault h) (by decide)⟩

theorem witness_PermCommandsPermuteBlocks :
    ready.tv = true ∧ allMarked ready.din ∧ allMarked ready.pt ∧ allMarked ready.pti :=
  ⟨rfl, ready_marked.1, ready_marked.2.2.2.2.1, ready_marked.2.2.2.2.2⟩

theorem witness_PermCommandsUndoEachOther : ready.tv = true ∧ TablesValid ready ∧ allMarked ready.din :=
  ⟨rfl, ready_tables, ready_marked.1⟩

theorem witness_TableGateRefusesUnverifiedTables :
    State.reset.tv = false ∧ (∃ t, exec .gen State.reset = .next t ∧ State.reset.fault = none ∧ t.fault = none) ∧
    (Inv ready ∧ ready.tv = true) :=
  ⟨rfl, ⟨_, rfl, rfl, rfl⟩, ready_inv, rfl⟩

theorem witness_DeriveKeyMarshalsTheDigest :
    ready.tv = true ∧ allMarked ready.din ∧ allMarked ready.pt ∧ wordsOf ready.din = wordsOf ready.din :=
  ⟨rfl, ready_marked.1, ready_marked.2.2.2.2.1, rfl⟩

/-- The first clause, and the lengths 31 and 33 of the second. -/
theorem witness_SegmentMarshalsThePlaintext :
    (ready.tv = true ∧ allMarked ready.din ∧ allMarked ready.pt ∧ wordsOf ready.din = wordsOf ready.din) ∧
      31 ≠ 32 ∧ 33 ≠ 32 :=
  ⟨⟨rfl, ready_marked.1, ready_marked.2.2.2.2.1, rfl⟩, by decide, by decide⟩

/-- Two states that differ in `KS`. -/
theorem witness_MarshallingIsDeterministic :
    ∃ s s' t t' u u' : State, s ≠ s' ∧ s.tv = true ∧ s'.tv = true ∧ s.din = s'.din ∧ s.pt = s'.pt ∧ allMarked s.din ∧
      allMarked s.pt ∧ exec .deriveKey s = .next t ∧ exec .deriveKey s' = .next t' ∧ exec (.segment 32) s = .next u ∧
      exec (.segment 32) s' = .next u' := by
  obtain ⟨t, ht⟩ := exec_is_next .deriveKey ready
  obtain ⟨t', ht'⟩ := exec_is_next .deriveKey { ready with ks := State.reset.ks }
  obtain ⟨u, hu⟩ := exec_is_next (.segment 32) ready
  obtain ⟨u', hu'⟩ := exec_is_next (.segment 32) { ready with ks := State.reset.ks }
  exact ⟨ready, { ready with ks := State.reset.ks }, t, t', u, u', fun h => absurd (congrArg State.ks h) (by decide +kernel),
    rfl, rfl, rfl, rfl, ready_marked.1, ready_marked.2.2.2.2.1, ht, ht', hu, hu'⟩

theorem witness_EncryptRunsOneRoundPerLane : allMarked ready.ms ∧ oddMarked ready.ks :=
  ⟨ready_marked.2.2.2.1, ready_oddMarked⟩

theorem witness_DecryptInvertsRoundPermutationAndPairing :
    ready.tv = true ∧ allMarked ready.din ∧ oddMarked ready.ks ∧ allMarked ready.pti ∧
      wordsOf ready.din = wordsOf ready.din :=
  ⟨rfl, ready_marked.1, ready_oddMarked, ready_marked.2.2.2.2.2, rfl⟩

theorem witness_DecryptOfEncryptGivesThePlaintext :
    ∃ (s e d : State) (w : Segments) (m : Fin 32 → BitVec 8),
      s.tv = true ∧ TablesValid s ∧ (∀ j, s.din.get j = { value := w j, marked := true }) ∧
      (∀ s1, exec (.segment 32) s = .next s1 → e.ms = s1.ms) ∧ oddMarked e.ks ∧
      (∀ s2, exec .encrypt e = .next s2 → d.din = s2.dout) ∧
      (∀ l : Fin 4, d.ks.get (oddIdx l) = e.ks.get (oddIdx l)) ∧ d.tv = true ∧ d.pti = s.pti ∧ w = packBytes m := by
  obtain ⟨s1, h1⟩ := exec_is_next (.segment 32) { ready with din := storeAll (packBytes (unpackBytes plaintext)) }
  obtain ⟨s2, h2⟩ := exec_is_next .encrypt { ready with ms := s1.ms }
  refine ⟨{ ready with din := storeAll (packBytes (unpackBytes plaintext)) }, { ready with ms := s1.ms },
    { ready with din := s2.dout }, packBytes (unpackBytes plaintext), unpackBytes plaintext, rfl, ready_tables,
    fun j => get_storeAll _ j, fun t h => ?_, ready_oddMarked, fun t h => ?_, fun _ => rfl, rfl, rfl, rfl⟩
  · rw [h1] at h; cases h; rfl
  · rw [h2] at h; cases h; rfl

theorem witness_ExpandShowsTheExpander : (ready.din.get 0).marked = true := ready_marked.1 0

/-- One state for each constant word. -/
theorem witness_ExpandOfConstantWords :
    (∃ s t : State, (s.din.get 0).marked = true ∧ exec .expand s = .next t ∧ wordsOf s.din 0 = 0x00000000#32) ∧
    ∃ s t : State, (s.din.get 0).marked = true ∧ exec .expand s = .next t ∧ wordsOf s.din 0 = 0xFFFFFFFF#32 := by
  refine ⟨⟨{ ready with din := storeAll fun _ => 0 }, ?_⟩, ⟨{ ready with din := storeAll fun _ => 0xFFFFFFFF }, ?_⟩⟩
  all_goals
    obtain ⟨t, h⟩ := exec_is_next .expand _
    exact ⟨t, by simp, h, by simp [wordsOf]⟩

theorem witness_SubstShowsTheSboxes : (ready.din.get 0).marked = true ∧ (ready.din.get 1).marked = true :=
  ⟨ready_marked.1 0, ready_marked.1 1⟩

/-- Another value in `KS[0]`. -/
theorem witness_EvenKeyWordsAreNeverRead :
    ∃ k : RegFile, k ≠ ready.ks ∧ ∀ l : Fin 4, k.get (oddIdx l) = ready.ks.get (oddIdx l) :=
  ⟨ready.ks.set 0 (Cell.written 7), by decide +kernel, by decide +kernel⟩

theorem witness_CommandsWriteOnlyTheirFiles :
    ∃ (i : Instr) (s t : State), exec i s = .next t ∧ t.tv ≠ s.tv ∧ t.draws ≠ s.draws :=
  ⟨.gen, State.reset, _, rfl, by decide, by decide⟩

theorem witness_MutualInverseIsTheInverseOfABijection : mutualInverse mul mulInv := by decide +kernel

theorem mul_bijection : isBijection mul := by decide +kernel

theorem witness_InverseOfABijectionIsUnique : isBijection mul ∧ ∀ i, mulInv (mul i) = i :=
  ⟨mul_bijection, by decide +kernel⟩

theorem witness_InverseTablesUndoEachOther : mutualInverse mul mulInv := by decide +kernel

theorem witness_ReorderInvertsThePairing :
    (∃ u v : Segments, ∀ j, v (reordIdx j) = u j) ∧
    ∃ u w : Segments, ∀ b : Fin 4, u (evenIdx b) = w (pairA b) ∧ u (oddIdx b) = w (pairC b) :=
  ⟨⟨digest, ![0xFB98D44A, 0x9F3F4F4A, 0xD7501A95, 0x3F004FE2, 0xD9E581EA, 0xC4B02C08, 0x6207E218, 0xA4D75ADF],
    by decide +kernel⟩,
   ⟨![0xFB98D44A, 0x9F3F4F4A, 0xD7501A95, 0x3F004FE2, 0xD9E581EA, 0xC4B02C08, 0x6207E218, 0xA4D75ADF], digest,
    by decide +kernel⟩⟩

theorem mapped_iff_decide (off : Nat) :
    Mapped off ↔ decide (off % 4 = 0 ∧ (off ≤ 0x008 ∨ (0x040 ≤ off ∧ off < 0x0C0) ∨ (0x100 ≤ off ∧ off < 0x300))) = true := by
  simp only [Mapped, decide_eq_true_eq]

/-- The first and the last offset of each range of the map, and the reserved ones beside them. -/
theorem witness_RegisterMapIsExact :
    (∀ off ∈ [0x000, 0x004, 0x008, 0x040, 0x05C, 0x060, 0x07C, 0x080, 0x09C, 0x0A0, 0x0BC, 0x100, 0x1FC, 0x200, 0x2FC],
      Mapped off) ∧
    ∀ off ∈ [0x002, 0x00C, 0x03C, 0x0C0, 0x0FC, 0x300, 0xFFC, 0x1000], ¬ Mapped off := by
  simp only [mapped_iff_decide]
  decide

theorem reset_undefined : CellUndefined State.reset 0x060 ∧ CellUndefined State.reset 0x2FC :=
  ⟨.inl ⟨0, .inr (.inl ⟨rfl, rfl⟩)⟩, .inr ⟨63, .inr ⟨rfl, rfl⟩⟩⟩

theorem ready_defined (off : Nat) : ¬ CellUndefined ready off := by
  rintro (⟨j, h | h | h | h⟩ | ⟨i, h | h⟩)
  · exact absurd (ready_marked.1 j) (by rw [h.2]; decide)
  · exact absurd (ready_marked.2.1 j) (by rw [h.2]; decide)
  · exact absurd (ready_marked.2.2.1 j) (by rw [h.2]; decide)
  · exact absurd (ready_marked.2.2.2.1 j) (by rw [h.2]; decide)
  · exact absurd (ready_marked.2.2.2.2.1 i) (by rw [h.2]; decide)
  · exact absurd (ready_marked.2.2.2.2.2 i) (by rw [h.2]; decide)

/-- The clauses in their order: size, alignment, mapping, busy, definedness, and an access that passes. -/
theorem witness_AccessChecksComeInOrder :
    (∃ op : HostOp, op = .read (Config.base + 0x040) 2 ∧ 2 ≠ 4) ∧
    (∃ op : HostOp, op = .read (Config.base + 0x006) 4 ∧ 0x006 % 4 ≠ 0) ∧
    (∃ op : HostOp, op = .write (Config.base + 0x300) 4 1 ∧ ¬ Mapped 0x300) ∧
    (∃ op : HostOp, op = .write (Config.base + 0x008) 4 1 ∧ Mapped 0x008 ∧ (pending 0 ready).busy = true ∧
      ¬ (op = .read (Config.base + 0x008) 4 ∧ (0x008 = 0x004 ∨ 0x008 = 0x008))) ∧
    (∃ op : HostOp, op = .read (Config.base + 0x2FC) 4 ∧ Mapped 0x2FC ∧ State.reset.busy = false ∧
      CellUndefined State.reset 0x2FC) ∧
    (∃ op : HostOp, op = .read (Config.base + 0x008) 4 ∧ Mapped 0x008 ∧ ¬ CellUndefined (pending 0 ready) 0x008) ∧
    (∃ op : HostOp, op = .write (Config.base + 0x2FC) 4 1 ∧ Mapped 0x2FC ∧ ready.busy = false) := by
  refine ⟨⟨_, rfl, by decide⟩, ⟨_, rfl, by decide⟩, ⟨_, rfl, ?_⟩, ⟨_, rfl, ?_, rfl, by simp⟩,
    ⟨_, rfl, ?_, rfl, reset_undefined.2⟩, ⟨_, rfl, ?_, ready_defined 0x008⟩, ⟨_, rfl, ?_, rfl⟩⟩
  all_goals
    rw [mapped_iff_decide]
    decide

theorem witness_HostReadsReturnTheRegister :
    ready.busy = false ∧ allMarked ready.din ∧ allMarked ready.dout ∧ allMarked ready.ks ∧ allMarked ready.ms ∧
      allMarked ready.pt ∧ allMarked ready.pti := ⟨rfl, ready_marked⟩

theorem witness_HostWritesStoreOrAreIgnored : ready.busy = false := rfl

theorem witness_BusyAccessFaults :
    (pending 0 ready).busy = true ∧ (∀ off ∈ [0x000, 0x004, 0x008, 0x040, 0x0BC, 0x100, 0x2FC], Mapped off) ∧
      0x040 ≠ 0x004 ∧ 0x040 ≠ 0x008 := by
  simp only [mapped_iff_decide]
  decide +kernel

theorem witness_HostAccessSideEffects :
    (∀ off ∈ [0x004, 0x0BC], Mapped off ∧ off ≠ 0x000 ∧ off < 0x100) ∧
    (∀ off ∈ [0x100, 0x2FC], Mapped off ∧ 0x100 ≤ off) ∧ ready.busy = false := by
  simp only [mapped_iff_decide]
  decide +kernel

theorem witness_TableWriteClosesTheGate :
    (∀ off ∈ [0x100, 0x2FC], Mapped off ∧ 0x100 ≤ off) ∧ ready.busy = false ∧
      Instr.segment 32 ∈ [.permFwd, .permInv, .deriveKey, .segment 32, .decrypt] :=
  ⟨witness_HostAccessSideEffects.2.1, rfl, by decide⟩

/-- While busy and not. -/
theorem witness_WaitPollsUntilNotBusy :
    HostTurn (hosting .wait ready) .wait [] ∧ HostTurn (hosting .wait (pending 0 ready)) .wait [] ∧
      (hosting .wait ready).busy = false ∧ (hosting .wait (pending 0 ready)).busy = true :=
  ⟨hosting_turn _ rfl, hosting_turn _ rfl, rfl, rfl⟩

theorem witness_LoadPseudoInstructionsFillFilesAndTables : ready.busy = false := rfl

/-- A step that runs a command, from a state with tables and files. -/
theorem witness_EveryStepKeepsTheInvariant :
    Inv (pending 0x2007 ready) ∧ ∃ t, step (pending 0x2007 ready) = .next t :=
  ⟨pending_inv _, exec_is_next (.segment 32) (popTurn (pending 0x2007 ready))⟩

/-- A busy state with the reset input next. -/
theorem witness_ResetDiscardsEverything :
    { pending 0x2007 ready with schedule := [.reset] }.schedule = .reset :: [] ∧
      { pending 0x2007 ready with schedule := [.reset] }.busy = true := ⟨rfl, rfl⟩

/-- `GEN` sets TV; the reset input and a table write clear it. -/
theorem witness_OnlyTableEventsChangeTv :
    (∃ s t, step s = .next t ∧ s.tv = false ∧ t.tv = true) ∧
    (∃ s t, step s = .next t ∧ s.tv = true ∧ t.tv = false ∧ s.schedule.head? = some .reset) ∧
    ∃ s t, step s = .next t ∧ s.tv = true ∧ t.tv = false ∧ s.schedule.head? ≠ some .reset :=
  ⟨⟨pending 0x1 State.reset, _, rfl, rfl, rfl⟩, ⟨{ ready with schedule := [.reset] }, _, rfl, rfl, rfl, rfl⟩,
    ⟨hosting (.write (regAddress (.pti 63)) 4 1) ready, _, rfl, rfl, by
      rw [show popTurn (hosting (.write (regAddress (.pti 63)) 4 1) ready) =
        { hosting (.write (regAddress (.pti 63)) 4 1) ready with schedule := [] } from rfl]
      simp only [hostStep, hosting]
      rw [hostAccess_write_reg (.pti 63) 1 rfl]
      rfl, by decide⟩⟩

theorem witness_DefinedCellsStayDefined :
    ∃ t, step (pending 0x2007 ready) = .next t ∧ (pending 0x2007 ready).schedule.head? ≠ some .reset := by
  obtain ⟨t, h⟩ := witness_EveryStepKeepsTheInvariant.2
  exact ⟨t, h, by decide⟩

theorem witness_IdleEngineKeepsItsState :
    ready.fault = none ∧ ready.pend = none ∧ ready.program = [] ∧ Turn.reset ∉ ready.schedule :=
  ⟨rfl, rfl, rfl, by decide⟩

theorem witness_AcceptedCommandCompletes :
    (pending 0x2007 ready).fault = none ∧ (pending 0x2007 ready).pend = some 0x2007 := ⟨rfl, rfl⟩

end Sys2Proof.Tests
end

section
/-! PROOF. What a host access does at an offset of the register window (20_memory.md R51 to R57, R60). -/

namespace Sys2Proof.Machine

open Sys2Proof.Claims

/-! ### The register map -/

theorem regOffset_injective : Function.Injective regOffset := fun r r' h =>
  Option.some.inj (by rw [← regAt_regOffset r, h, regAt_regOffset])

/-- The offsets of the registers are the ones R51 lists. -/
theorem mapped_regOffset (r : Reg) : Mapped (regOffset r) := by
  refine ⟨regOffset_aligned r, ?_⟩
  cases r <;> simp only [regOffset] <;> omega

/-- Each offset R51 lists is a register's. -/
theorem exists_reg_of_mapped {off : Nat} (h : Mapped off) : ∃ r, off = regOffset r := by
  obtain ⟨haligned, hrange⟩ := h
  have hranges : off = 0x000 ∨ off = 0x004 ∨ off = 0x008 ∨ (0x040 ≤ off ∧ off < 0x060) ∨ (0x060 ≤ off ∧ off < 0x080) ∨
      (0x080 ≤ off ∧ off < 0x0A0) ∨ (0x0A0 ≤ off ∧ off < 0x0C0) ∨ (0x100 ≤ off ∧ off < 0x200) ∨
      (0x200 ≤ off ∧ off < 0x300) := by omega
  rcases hranges with h | h | h | h | h | h | h | h | h
  · exact ⟨.cmd, h⟩
  · exact ⟨.status, h⟩
  · exact ⟨.errcode, h⟩
  · exact ⟨.din ⟨(off - 0x040) / 4, by omega⟩, by simp only [regOffset]; omega⟩
  · exact ⟨.dout ⟨(off - 0x060) / 4, by omega⟩, by simp only [regOffset]; omega⟩
  · exact ⟨.ks ⟨(off - 0x080) / 4, by omega⟩, by simp only [regOffset]; omega⟩
  · exact ⟨.ms ⟨(off - 0x0A0) / 4, by omega⟩, by simp only [regOffset]; omega⟩
  · exact ⟨.pt ⟨(off - 0x100) / 4, by omega⟩, by simp only [regOffset]; omega⟩
  · exact ⟨.pti ⟨(off - 0x200) / 4, by omega⟩, by simp only [regOffset]; omega⟩

/-- A misaligned or reserved offset is no register's. -/
theorem regAt_of_not_mapped {off : Nat} (h : ¬ Mapped off) : regAt off = none := by
  have hreserved : off % 4 ≠ 0 ∨ (0x008 < off ∧ off < 0x040) ∨ (0x0C0 ≤ off ∧ off < 0x100) ∨ 0x300 ≤ off := by
    unfold Mapped at h
    omega
  rcases hreserved with h | h | h | h <;> simp (disch := omega) only [regAt, if_pos, if_neg, ite_self]

/-! ### The access checks -/

/-- The first three checks of R52: size, and an offset that is a register's. -/
theorem checkOffset_busError {s : State} {isWrite : Bool} {off size : Nat} (h : size ≠ 4 ∨ ¬ Mapped off) :
    checkOffset s isWrite off size = .error .busError := by
  by_cases hsize : size = 4
  · simp [checkOffset, hsize, regAt_of_not_mapped (h.resolve_left (not_not.mpr hsize))]
  · simp [checkOffset, hsize]

/-- An access that fails one of the first three checks of R52, inside the window or beyond its end. -/
theorem hostAccess_busError {s : State} {off size : Nat} {v : Word} {op : HostOp}
    (hop : op = .read (Config.base + off) size ∨ op = .write (Config.base + off) size v)
    (h : size ≠ 4 ∨ ¬ Mapped off) : hostAccess op s = recordFault .busError s := by
  by_cases hoff : off < 4096
  · rcases hop with rfl | rfl
    · simp [hostAccess, hostRead, readOffset, windowOffset_base hoff, checkOffset_busError h]
    · simp [hostAccess, hostWrite, writeOffset, windowOffset_base hoff, checkOffset_busError h]
  · rcases hop with rfl | rfl
    · simp [hostAccess, hostRead, windowOffset_outside hoff]
    · simp [hostAccess, hostWrite, windowOffset_outside hoff]

/-- The registers a busy engine lets the host read stand at `0x004` and `0x008` (R57). -/
theorem busyAllows_read_iff (r : Reg) : busyAllows false r = true ↔ regOffset r = 0x004 ∨ regOffset r = 0x008 := by
  have hstatus : regOffset r = 0x004 ↔ r = .status := regOffset_injective.eq_iff (b := .status)
  have herrcode : regOffset r = 0x008 ↔ r = .errcode := regOffset_injective.eq_iff (b := .errcode)
  simp [busyAllows, hstatus, herrcode]

/-- A busy engine faults every read but the two it allows (R57). -/
theorem hostAccess_read_busy {s : State} {r : Reg} (hb : s.busy = true) (hr : busyAllows false r = false) :
    hostAccess (.read (regAddress r) 4) s = recordFault .hostProtocol s := by
  simp [hostAccess, hostRead, readOffset, checkOffset_busy hb hr]

/-- A register reads as nothing exactly where its cell is not defined (10_state.md R31). -/
theorem readReg_eq_none_iff (s : State) (r : Reg) : readReg s r = none ↔ CellUndefined s (regOffset r) := by
  constructor
  · intro h
    cases r with
    | cmd => cases h
    | status => cases h
    | errcode => cases h
    | din j => exact .inl ⟨j, .inl ⟨rfl, read_eq_none h⟩⟩
    | dout j => exact .inl ⟨j, .inr (.inl ⟨rfl, read_eq_none h⟩)⟩
    | ks j => exact .inl ⟨j, .inr (.inr (.inl ⟨rfl, read_eq_none h⟩))⟩
    | ms j => exact .inl ⟨j, .inr (.inr (.inr ⟨rfl, read_eq_none h⟩))⟩
    | pt i => exact .inr ⟨i, .inl ⟨rfl, read_eq_none (Option.map_eq_none_iff.mp h)⟩⟩
    | pti i => exact .inr ⟨i, .inr ⟨rfl, read_eq_none (Option.map_eq_none_iff.mp h)⟩⟩
  · rintro (⟨j, ⟨ho, hm⟩ | ⟨ho, hm⟩ | ⟨ho, hm⟩ | ⟨ho, hm⟩⟩ | ⟨i, ⟨ho, hm⟩ | ⟨ho, hm⟩⟩)
    · rw [regOffset_injective (a₂ := .din j) ho]; exact read_of_unmarked hm
    · rw [regOffset_injective (a₂ := .dout j) ho]; exact read_of_unmarked hm
    · rw [regOffset_injective (a₂ := .ks j) ho]; exact read_of_unmarked hm
    · rw [regOffset_injective (a₂ := .ms j) ho]; exact read_of_unmarked hm
    · rw [regOffset_injective (a₂ := .pt i) ho]; exact Option.map_eq_none_iff.mpr (read_of_unmarked hm)
    · rw [regOffset_injective (a₂ := .pti i) ho]; exact Option.map_eq_none_iff.mpr (read_of_unmarked hm)

/-- A read the host may make now, of a cell that is not defined (R52, check 5). -/
theorem hostAccess_read_undefined {s : State} {r : Reg} (h : s.busy = false ∨ busyAllows false r = true)
    (hu : CellUndefined s (regOffset r)) :
    hostAccess (.read (regAddress r) 4) s = recordFault .unwrittenRead s := by
  simp [hostAccess, hostRead_reg r h, (readReg_eq_none_iff s r).mpr hu]

/-- A read that passes all five checks of R52 records no fault. -/
theorem hostAccess_read_keeps_fault {s : State} {r : Reg} (h : s.busy = false ∨ busyAllows false r = true)
    (hd : ¬ CellUndefined s (regOffset r)) : (hostAccess (.read (regAddress r) 4) s).fault = s.fault := by
  obtain ⟨v, hv⟩ := Option.ne_none_iff_exists'.mp (mt (readReg_eq_none_iff s r).mp hd)
  simp [hostAccess, hostRead_reg r h, hv]

/-- `STATUS` and `ERRCODE` are always defined (R52, check 5). -/
theorem not_cellUndefined_of_busyAllows {s : State} {r : Reg} (h : busyAllows false r = true) :
    ¬ CellUndefined s (regOffset r) := by
  rw [busyAllows_read_iff] at h
  rintro (⟨j, hj⟩ | ⟨i, hi⟩) <;> omega

/-! ### What a write changes -/

@[simp] theorem writeReg_fault (v : Word) (s : State) (r : Reg) : (writeReg v s r).fault = s.fault := by
  cases r <;> rfl

/-- Only a `CMD` write touches the status outside TV, the error code or the pending word (R60). -/
theorem writeReg_keeps_status {r : Reg} (v : Word) (s : State) (h : r ≠ .cmd) :
    (writeReg v s r).busy = s.busy ∧ (writeReg v s r).done = s.done ∧ (writeReg v s r).err = s.err ∧
      (writeReg v s r).errcode = s.errcode ∧ (writeReg v s r).pend = s.pend := by
  cases r with
  | cmd => exact absurd rfl h
  | _ => exact ⟨rfl, rfl, rfl, rfl, rfl⟩

/-- A table write clears TV (R56). -/
theorem writeReg_tv_of_table {r : Reg} (v : Word) (s : State) (h : 0x100 ≤ regOffset r) :
    (writeReg v s r).tv = false := by
  cases r with
  | pt i => rfl
  | pti i => rfl
  | _ => simp only [regOffset] at h; omega

/-- A write below the tables leaves TV alone. -/
theorem writeReg_tv_of_lt {r : Reg} (v : Word) (s : State) (h : regOffset r < 0x100) :
    (writeReg v s r).tv = s.tv := by
  cases r with
  | pt i => simp only [regOffset] at h; omega
  | pti i => simp only [regOffset] at h; omega
  | _ => rfl

@[simp] theorem storeAt_storeAt_self {n w : Nat} (v : Vector (Cell w) n) (j : Fin n) (x : BitVec w) :
    storeAt (storeAt v j x) j x = storeAt v j x :=
  Vector.set_set ..

/-- The same value written again changes nothing more. -/
theorem writeReg_idempotent (v : Word) (s : State) (r : Reg) : writeReg v (writeReg v s r) r = writeReg v s r := by
  cases r <;> simp [writeReg, accept]

/-- An access that writes a register other than `CMD` is idempotent, also where a busy engine faults it. -/
theorem hostAccess_write_idempotent {r : Reg} (v : Word) (s : State) (h : r ≠ .cmd) :
    hostAccess (.write (regAddress r) 4 v) (hostAccess (.write (regAddress r) 4 v) s) =
      hostAccess (.write (regAddress r) 4 v) s := by
  cases hb : s.busy with
  | true => rw [hostAccess_write_busy r v hb, hostAccess_write_busy r v (s := recordFault _ s) hb]; rfl
  | false =>
    have hb' : (writeReg v s r).busy = false := (writeReg_keeps_status v s h).1.trans hb
    rw [hostAccess_write_reg r v hb, hostAccess_write_reg r v hb', writeReg_idempotent]

end Sys2Proof.Machine
end

section
/-! PROOF. The obligations on the host's accesses (20_memory.md sections 2 to 4). -/

namespace Sys2Proof.Proofs

open Sys2Proof.Machine Sys2Proof.Claims

/-- Settles O43: a failing check of R52 by the law of that check, at the register the offset names. -/
theorem accessChecksComeInOrder : Obligations.AccessChecksComeInOrder := by
  intro s off size v op hop
  refine ⟨fun hs => hostAccess_busError hop (.inl hs), fun _ ha => hostAccess_busError hop (.inr fun hm => ha hm.1),
    fun _ _ hm => hostAccess_busError hop (.inr hm), ?_, ?_, ?_, ?_⟩
  · rintro rfl hm hb hallowed
    obtain ⟨r, rfl⟩ := exists_reg_of_mapped hm
    rcases hop with rfl | rfl
    · have hr : busyAllows false r = false :=
        Bool.eq_false_iff.mpr fun h => hallowed ⟨rfl, (busyAllows_read_iff r).mp h⟩
      exact hostAccess_read_busy hb hr
    · exact hostAccess_write_busy r v hb
  · rintro rfl hm hb rfl hu
    obtain ⟨r, rfl⟩ := exists_reg_of_mapped hm
    exact hostAccess_read_undefined (.inl hb) hu
  · rintro rfl hm hallowed rfl hd
    obtain ⟨r, rfl⟩ := exists_reg_of_mapped hm
    exact hostAccess_read_keeps_fault (hallowed.imp_right (busyAllows_read_iff r).mpr) hd
  · rintro rfl hm hb rfl
    obtain ⟨r, rfl⟩ := exists_reg_of_mapped hm
    exact (congrArg State.fault (hostAccess_write_reg r v hb)).trans (writeReg_fault v s r)

/-- Settles O45: each write is the accepted write of the register at that offset; `v[5:0]` is `v` cut to six bits. -/
theorem hostWritesStoreOrAreIgnored : Obligations.HostWritesStoreOrAreIgnored := by
  intro s v hb
  refine ⟨fun j => ⟨?din, ?ks, ?ms, ?dout⟩, ?status, ?errcode, fun i => ⟨?pt, ?pti⟩⟩
  case din => exact hostAccess_write_reg (.din j) v hb
  case ks => exact hostAccess_write_reg (.ks j) v hb
  case ms => exact hostAccess_write_reg (.ms j) v hb
  case dout => exact hostAccess_write_reg (.dout j) v hb
  case status => exact hostAccess_write_reg .status v hb
  case errcode => exact hostAccess_write_reg .errcode v hb
  case pt =>
    rw [BitVec.setWidth_eq_extractLsb' (by decide)]
    exact hostAccess_write_reg (.pt i) v hb
  case pti =>
    rw [BitVec.setWidth_eq_extractLsb' (by decide)]
    exact hostAccess_write_reg (.pti i) v hb

/-- Settles O46: the busy check at the register the offset names, which lets the two status reads through. -/
theorem busyAccessFaults : Obligations.BusyAccessFaults := by
  intro s off v hb hm
  obtain ⟨r, rfl⟩ := exists_reg_of_mapped hm
  refine ⟨hostAccess_write_busy r v hb, fun h4 h8 => ?_, fun h => ?_⟩
  · have hr : busyAllows false r = false :=
      Bool.eq_false_iff.mpr fun h => ((busyAllows_read_iff r).mp h).elim h4 h8
    exact hostAccess_read_busy hb hr
  · have hr := (busyAllows_read_iff r).mpr h
    exact hostAccess_read_keeps_fault (.inr hr) (not_cellUndefined_of_busyAllows hr)

/-- Settles O47: a read by its two outcomes, a write by what `writeReg` keeps; a write that a busy engine faults records
the fault alone. -/
theorem hostAccessSideEffects : Obligations.HostAccessSideEffects := by
  refine ⟨fun s addr size => ?_, fun s off v hm h0 hlt t ht => ?_, fun s off v hm hge hb t ht => ?_,
    fun s v hb => hostAccess_write_reg .cmd v hb⟩
  · rcases hostAccess_read_cases addr size s with ⟨r, -, h⟩ | ⟨v, -, h⟩
    · exact ⟨s.readLog, some r, h⟩
    · exact ⟨v :: s.readLog, s.fault, h⟩
  · obtain ⟨r, rfl⟩ := exists_reg_of_mapped hm
    have hr : r ≠ .cmd := fun h => h0 (h ▸ rfl)
    refine ⟨ht ▸ hostAccess_write_idempotent v s hr, ?_⟩
    cases hb : s.busy with
    | true =>
      obtain rfl : t = recordFault .hostProtocol s := ht.trans (hostAccess_write_busy r v hb)
      exact ⟨rfl, rfl, rfl⟩
    | false =>
      obtain rfl : t = writeReg v s r := ht.trans (hostAccess_write_reg r v hb)
      obtain ⟨hbusy, hdone, herr, hcode, hpend⟩ := writeReg_keeps_status v s hr
      exact ⟨by simp only [statusWord, hbusy, hdone, herr, writeReg_tv_of_lt v s hlt], hcode, hpend⟩
  · obtain ⟨r, rfl⟩ := exists_reg_of_mapped hm
    have hr : r ≠ .cmd := fun h => by subst h; exact absurd hge (by decide)
    obtain rfl : t = writeReg v s r := ht.trans (hostAccess_write_reg r v hb)
    exact ⟨writeReg_tv_of_table v s hge, writeReg_keeps_status v s hr⟩

end Sys2Proof.Proofs
end

section
/-! PROOF. The fields of the command word and the decoder's answers (30_encoding.md R70, R72, R74), one law per
function and per answer. -/

namespace Sys2Proof

/-! ### The fields of the command word (R70), as arithmetic on the word's value -/

theorem opField_eq (w : Word) : opField w = w.toNat % 256 := by
  simp [opField, BitVec.extractLsb'_toNat]

theorem lenField_eq (w : Word) : lenField w = w.toNat / 256 % 256 := by
  simp [lenField, BitVec.extractLsb'_toNat, Nat.shiftRight_eq_div_pow]

/-- `RSVD` is the whole upper half, so what the shift leaves of a 32-bit word needs no cut. -/
theorem rsvdField_eq (w : Word) : rsvdField w = w.toNat / 65536 := by
  have hw : w.toNat / 65536 < 65536 := Nat.div_lt_of_lt_mul w.isLt
  simp [rsvdField, BitVec.extractLsb'_toNat, Nat.shiftRight_eq_div_pow, Nat.mod_eq_of_lt hw]

/-! ### The opcode map and the decoder -/

/-- The opcode map is R72's table in the order of the opcodes, and nothing beyond its end. -/
theorem commandOf_eq_getElem? (op len : Nat) :
    commandOf op len = [.nop, .gen, .invert, .verify, .permFwd, .permInv, .deriveKey, .segment len, .encrypt, .decrypt,
      .expand, .subst][op]? := by
  match op with
  | 0 | 1 | 2 | 3 | 4 | 5 | 6 | 7 | 8 | 9 | 10 | 11 | _ + 12 => rfl

theorem commandOf_eq_none_iff {op len : Nat} : commandOf op len = none ↔ 0x0B < op := by
  rw [commandOf_eq_getElem?, List.getElem?_eq_none_iff]
  exact Nat.succ_le_iff

theorem exists_commandOf_of_le {op : Nat} (len : Nat) (h : op ≤ 0x0B) : ∃ i, commandOf op len = some i :=
  Option.ne_none_iff_exists'.mp (mt commandOf_eq_none_iff.mp h.not_gt)

/-- The opcode is judged first, whatever the other fields hold (60_exceptions.md R202). -/
theorem decode_of_opField_gt {w : Word} (hop : 0x0B < opField w) : decode w = .error .illegalOpcode := by
  simp [decode, commandOf_eq_none_iff.mpr hop]

theorem decode_of_rsvdField_ne_zero {w : Word} (hop : opField w ≤ 0x0B) (hr : rsvdField w ≠ 0) :
    decode w = .error .reservedField := by
  obtain ⟨i, hi⟩ := exists_commandOf_of_le (lenField w) hop
  simp [decode, hi, hr]

theorem decode_of_lenField_ne_zero {w : Word} (hop : opField w ≤ 0x0B) (hseg : opField w ≠ 0x07)
    (hl : lenField w ≠ 0) : decode w = .error .reservedField := by
  obtain ⟨i, hi⟩ := exists_commandOf_of_le (lenField w) hop
  simp [decode, hi, hseg, hl]

/-- A word whose reserved bits are clear decodes to what the opcode map says. -/
theorem decode_of_commandOf {w : Word} {i : Instr} (hi : commandOf (opField w) (lenField w) = some i)
    (hr : rsvdField w = 0) (hl : opField w = 0x07 ∨ lenField w = 0) : decode w = .ok i := by
  have hlen : ¬(opField w ≠ 0x07 ∧ lenField w ≠ 0) := fun h => hl.elim h.1 h.2
  simp only [decode, hi, hr, ne_eq, not_true_eq_false, if_false, if_neg hlen]

end Sys2Proof
end

section
/-! PROOF. The obligations on the decoder (30_encoding.md section 2). -/

namespace Sys2Proof.Proofs

/-- Settles O3: the four clauses are the decoder's four answers, with the fields read as arithmetic on the word. -/
theorem decoderClassifiesEveryWord : Obligations.DecoderClassifiesEveryWord := by
  intro w op len rsvd hop hlen hrsvd
  obtain rfl : op = opField w := hop.trans (opField_eq w).symm
  obtain rfl : len = lenField w := hlen.trans (lenField_eq w).symm
  obtain rfl : rsvd = rsvdField w := hrsvd.trans (rsvdField_eq w).symm
  refine ⟨decode_of_opField_gt, decode_of_rsvdField_ne_zero, fun hle _ => decode_of_lenField_ne_zero hle,
    fun hle hr hl => ?_⟩
  obtain ⟨i, hi⟩ := exists_commandOf_of_le (lenField w) hle
  exact ⟨i, decode_of_commandOf hi hr hl, commandOf_eq_getElem? _ _ ▸ hi⟩

/-- Settles O4: each word is a literal, and the decoder computes its answer. -/
theorem commandWordsDecode : Obligations.CommandWordsDecode :=
  ⟨rfl, rfl, rfl, rfl, rfl, rfl, rfl, rfl, rfl, rfl, rfl, rfl⟩

end Sys2Proof.Proofs
end

section
/-! PROOF. The laws of the permutation tables (40_datapath.md R102 to R106): how `apply` moves the bits, and when one
table inverts another. -/

namespace Sys2Proof.Machine

open Sys2Proof.Claims

/-- `apply` in its word form follows from its sequence form (R102). -/
theorem applyTable_permutedBy (x : Block) (t : Table) : PermutedBy t x (applyTable x t) := fun i => by
  have h := seqBit_applyTable x t i
  rwa [seqBit_eq_getLsbD _ i.isLt, seqBit_eq_getLsbD _ (t i).isLt] at h

theorem inverseOf_apply {t : Table} (h : isBijection t) (i : Fin 64) : inverseOf t (t i) = i :=
  (isBijection_iff_injective t).mp h (apply_inverseOf ⟨i, rfl⟩)

theorem isBijection_of_mutualInverse {t u : Table} (h : mutualInverse t u) : isBijection t :=
  (isBijection_iff_injective t).mpr (Function.LeftInverse.injective h)

/-- On a finite domain a left inverse is a right inverse (R105). -/
theorem mutualInverse_symm {t u : Table} (h : mutualInverse t u) : mutualInverse u t :=
  Function.LeftInverse.rightInverse_of_card_le h le_rfl

/-- A table that undoes `T` is the positional inverse of `T` (R104). -/
theorem eq_inverseOf_of_mutualInverse {t u : Table} (h : mutualInverse t u) : u = inverseOf t := funext fun j =>
  calc u j = inverseOf t (t (u j)) := (inverseOf_apply (isBijection_of_mutualInverse h) (u j)).symm
    _ = inverseOf t j := congrArg (inverseOf t) (mutualInverse_symm h j)

theorem mutualInverse_iff (t u : Table) : mutualInverse t u ↔ isBijection t ∧ u = inverseOf t := by
  constructor
  · exact fun h => ⟨isBijection_of_mutualInverse h, eq_inverseOf_of_mutualInverse h⟩
  · rintro ⟨hb, rfl⟩
    exact inverseOf_apply hb

/-- `apply(apply(x, T), U)⟨i⟩ = x⟨T[U[i]]⟩`, so the block comes back where `T[U[i]] = i` (R106). -/
theorem applyTable_applyTable {t u : Table} (h : mutualInverse u t) (x : Block) :
    applyTable (applyTable x t) u = x :=
  ext_seqBit fun i => by rw [seqBit_applyTable, seqBit_applyTable, h i]

end Sys2Proof.Machine
end

section
/-! PROOF. The laws of the round function (40_datapath.md R109 to R113): the expander and the S-box array in the word
form, and the expander's linearity. -/

namespace Sys2Proof.Machine

open Sys2Proof.Claims

/-- The expander in its word form (R109). -/
theorem expander_expandedTo (e : ExpMap) (r : Word) : ExpandedTo e r (expander e r) := fun j => by
  have h := seqBit_expander e r j
  rwa [seqBit_eq_getLsbD _ j.isLt, seqBit_eq_getLsbD _ (e j).isLt] at h

@[simp] theorem seqBit_xor {n : Nat} (v u : BitVec n) (i : Nat) : seqBit (v ^^^ u) i = (seqBit v i ^^ seqBit u i) :=
  BitVec.getMsbD_xor

/-- The expander only selects and copies bits (R113). -/
theorem expander_xor (e : ExpMap) (r k : Word) : expander e (r ^^^ k) = expander e r ^^^ expander e k :=
  ext_seqBit fun j => by rw [seqBit_xor, seqBit_expander, seqBit_expander, seqBit_expander, seqBit_xor]

/-- Chunk `c` is `x[47-6c : 42-6c]`, its bits from the most significant one (R110). -/
theorem chunkBit_eq_getLsbD (x : Expanded) (c : Fin 8) {k : Nat} (hk : k < 6) :
    chunkBit x c k = x.getLsbD (47 - k - 6 * c.val) := by
  rw [chunkBit, seqBit_eq_getLsbD _ (by omega), show 48 - 1 - (6 * c.val + k) = 47 - k - 6 * c.val by omega]

/-- Nibble `c` of a word is `y[31-4c : 28-4c]`, its elements `4c` to `4c + 3` (R110). -/
theorem seqBit_nibble (y : Word) (c : Fin 8) (k : Fin 4) :
    seqBit (y.extractLsb' (28 - 4 * c.val) 4) k.val = seqBit y (4 * c.val + k.val) := by
  rw [seqBit_eq_getLsbD _ k.isLt, seqBit_eq_getLsbD _ (by omega), BitVec.getLsbD_extractLsb',
    show 28 - 4 * c.val + (4 - 1 - k.val) = 32 - 1 - (4 * c.val + k.val) by omega]
  simp [show 3 - k.val < 4 by omega]

theorem nibble_substitute (sbox : SboxRom) (x : Expanded) (c : Fin 8) :
    (substitute sbox x).extractLsb' (28 - 4 * c.val) 4 = sbox c (sboxRow x c) (sboxCol x c) :=
  ext_seqBit fun k => by rw [seqBit_nibble, seqBit_substitute]

/-- The S-box array in the word form: the outer bits of a chunk are its row, the inner bits its column (R110). -/
theorem substitute_substitutedTo (sbox : SboxRom) (x : Expanded) : SubstitutedTo sbox x (substitute sbox x) := by
  intro c row col hrow hcol
  have hr : row = sboxRow x c := Fin.ext (by simpa [sboxRow, chunkBit_eq_getLsbD] using hrow)
  have hc : col = sboxCol x c := Fin.ext (by simpa [sboxCol, chunkBit_eq_getLsbD] using hcol)
  rw [hr, hc, nibble_substitute]

end Sys2Proof.Machine
end

section
/-! PROOF. The laws of the reorder mux (40_datapath.md R107, R116). -/

namespace Sys2Proof.Machine

@[simp] theorem reordIdx_reordIdx (j : Fin 8) : reordIdx (reordIdx j) = j := by
  revert j; decide

@[simp] theorem reordIdx_evenIdx (b : Fin 4) : reordIdx (evenIdx b) = pairA b := by
  revert b; decide

@[simp] theorem reordIdx_oddIdx (b : Fin 4) : reordIdx (oddIdx b) = pairC b := by
  revert b; decide

/-- Scattering by `REORD` gives the words that gathering by it gives (R116). -/
theorem eq_reorder_of_scatter {u v : Segments} (h : ∀ j, v (reordIdx j) = u j) : v = reorder u := funext fun j =>
  calc v j = v (reordIdx (reordIdx j)) := by rw [reordIdx_reordIdx]
    _ = reorder u j := h (reordIdx j)

/-- The reorder mux takes the words of the pairing mux back to their places (R107, R116). -/
theorem reorder_of_pairing {u w : Segments}
    (h : ∀ b : Fin 4, u (evenIdx b) = w (pairA b) ∧ u (oddIdx b) = w (pairC b)) : reorder u = w := by
  refine (eq_reorder_of_scatter fun j => ?_).symm
  rcases evenIdx_or_oddIdx j with hj | hj <;> rw [hj]
  · rw [reordIdx_evenIdx, (h _).1]
  · rw [reordIdx_oddIdx, (h _).2]

end Sys2Proof.Machine
end

section
/-! PROOF. The obligations on the datapath primitives (40_datapath.md). -/

namespace Sys2Proof.Proofs

open Sys2Proof.Machine Sys2Proof.Claims

/-- Settles O32: the sequence form is the law of `apply` on elements, and the word form is the same law read by bits. -/
theorem applyMovesBitsByTheTable : Obligations.ApplyMovesBitsByTheTable := fun x t i =>
  ⟨seqBit_applyTable x t i, applyTable_permutedBy x t i⟩

/-- Settles O33: on 64 positions a left inverse is two-sided, hence unique and a bijection itself. -/
theorem mutualInverseIsTheInverseOfABijection : Obligations.MutualInverseIsTheInverseOfABijection := fun t u =>
  ⟨mutualInverse_iff t u, fun h => ⟨mutualInverse_symm h, isBijection_of_mutualInverse (mutualInverse_symm h)⟩⟩

/-- Settles O34: the search finds the one position with the entry, and left inverses of a bijection agree. -/
theorem inverseOfABijectionIsUnique : Obligations.InverseOfABijectionIsUnique := fun _ hb =>
  ⟨inverseOf_apply hb, fun _ => eq_inverseOf_of_mutualInverse⟩

/-- Settles O35: the two tables compose to the identity on positions, in either order. -/
theorem inverseTablesUndoEachOther : Obligations.InverseTablesUndoEachOther := fun _ _ x h =>
  ⟨applyTable_applyTable (mutualInverse_symm h) x, applyTable_applyTable h x⟩

/-- Settles O36: the law of the expander on elements, and the same law read by bits. -/
theorem expanderSelectsTheMappedBits : Obligations.ExpanderSelectsTheMappedBits := fun e r =>
  ⟨expander_expandedTo e r, seqBit_expander e r⟩

/-- Settles O37: nibble by nibble, with the row and the column read from the chunk's bits. -/
theorem sboxesLookUpEachChunk : Obligations.SboxesLookUpEachChunk := substitute_substitutedTo

/-- Settles O38: both halves are the linearity of the expander. -/
theorem expanderIsLinear : Obligations.ExpanderIsLinear := fun e sbox r k =>
  ⟨(expander_xor e r k).symm, congrArg (substitute sbox) (expander_xor e r k).symm⟩

/-- Settles O39: `REORD` is its own inverse and sends the places of a lane to the words the pairing mux took; the
written-out words of R116 are one such pairing. -/
theorem reorderInvertsThePairing : Obligations.ReorderInvertsThePairing := by
  refine ⟨reordIdx_reordIdx, fun _ _ => eq_reorder_of_scatter, fun _ _ => reorder_of_pairing,
    fun w => reorder_of_pairing fun b => ?_⟩
  match b with
  | 0 | 1 | 2 | 3 => exact ⟨rfl, rfl⟩

end Sys2Proof.Proofs
end

section
/-! PROOF. How a command reports its end (60_exceptions.md R200, R203): the error code it completes with, and which
commands the table gate stops (41_control_table.md R136). -/

namespace Sys2Proof.Machine

open Sys2Proof.Claims

/-- The error codes are numbered apart (R200). -/
theorem codeOf_injective : Function.Injective codeOf := by
  intro e e' h
  cases e <;> cases e' <;> simp [codeOf] at h ⊢

/-- The model's completion is the one R203 writes. -/
theorem complete_eq_ends (e : ErrCode) (s : State) : complete e s = ends (codeOf e) s := by
  cases e <;> rfl

/-- A command that does not fault reports success or an error it raises. -/
theorem exec_reports {i : Instr} {s t : State} (h : exec i s = .next t) (hf : t.fault = none) :
    ∃ e, t.errcode = codeOf e ∧ (e = .ok ∨ Raises i s e) := by
  rcases exec_cases h with ⟨e, he, rfl⟩ | ⟨-, -, rfl⟩ | ⟨s', -, rfl⟩
  · exact ⟨e, rfl, .inr he⟩
  · exact absurd hf (Option.some_ne_none _)
  · exact ⟨.ok, rfl, .inl rfl⟩

/-- A nonzero code that a command reports is that of an error it raises. -/
theorem raises_of_errcode {i : Instr} {s t : State} {e : ErrCode} (h : exec i s = .next t) (hf : t.fault = none)
    (he : e ≠ .ok) (hc : t.errcode = codeOf e) : Raises i s e := by
  obtain ⟨e', hc', hor⟩ := exec_reports h hf
  obtain rfl : e = e' := codeOf_injective (hc.symm.trans hc')
  exact hor.resolve_left he

/-- A valid pair of tables undoes each other in both orders (10_state.md R37, 40_datapath.md R105). -/
theorem TablesValid.inverses {s : State} (h : TablesValid s) :
    mutualInverse (tableOf s.pt) (tableOf s.pti) ∧ mutualInverse (tableOf s.pti) (tableOf s.pt) := by
  obtain ⟨-, -, hm⟩ := h
  exact ⟨hm, mutualInverse_symm hm⟩

end Sys2Proof.Machine
end

section
/-! PROOF. The obligations on the control and table commands (41_control_table.md). -/

namespace Sys2Proof.Proofs

open Sys2Proof.Machine Sys2Proof.Claims

/-- Settles O20: code 4 is reported by a command that raises it and by no other, and the invariant's two tables are
each other's two-sided inverse. -/
theorem tableGateRefusesUnverifiedTables : Obligations.TableGateRefusesUnverifiedTables := by
  refine ⟨fun s i hi htv => ?refused, fun s t i hi _ h hf hc => ?ungated, fun s hinv htv => ?verified⟩
  case refused =>
    have hr : Raises i s .tableNotValid := ⟨htv, hi⟩
    rw [exec_of_raises hr, complete_eq_ends]
    rfl
  case ungated =>
    have hr : Raises i s .tableNotValid := raises_of_errcode h hf (by decide) hc
    obtain ⟨-, hgated⟩ := hr
    have hdisjoint : ∀ i ∈ [.encrypt, .expand, .subst, .nop, .gen, .invert, .verify],
        i ∉ [.permFwd, .permInv, .deriveKey, .segment 32, Instr.decrypt] := by decide
    exact hdisjoint i hi hgated
  case verified =>
    obtain ⟨hleft, hright⟩ := (hinv.tables htv).inverses
    exact ⟨Function.bijective_iff_has_inverse.mpr ⟨_, hleft, hright⟩,
      Function.bijective_iff_has_inverse.mpr ⟨_, hright, hleft⟩, hleft, hright⟩

end Sys2Proof.Proofs
end

section
/-! PROOF. The values the marshalling commands write (42_marshal.md R150, R151): the marshalled words of `DIN` under
`PT`, and so nothing else of the state. -/

namespace Sys2Proof.Machine

open Sys2Proof.Claims

/-- The keys that a gated `DERIVE_KEY` on defined operands leaves (R150). -/
theorem ks_of_exec_deriveKey {s t : State} (htv : s.tv = true) (hdin : allMarked s.din) (hpt : allMarked s.pt)
    (h : exec .deriveKey s = .next t) : t.ks = storeAll (marshal (wordsOf s.din) (tableOf s.pt)) := by
  have hw : Writes .deriveKey s { s with ks := storeAll (marshal (wordsOf s.din) (tableOf s.pt)) } :=
    ⟨htv, hdin, hpt, rfl⟩
  cases (exec_of_writes hw).symm.trans h
  rfl

/-- The message segments that a gated `SEGMENT 32` on defined operands leaves (R151). -/
theorem ms_of_exec_segment {s t : State} (htv : s.tv = true) (hdin : allMarked s.din) (hpt : allMarked s.pt)
    (h : exec (.segment 32) s = .next t) : t.ms = storeAll (marshal (wordsOf s.din) (tableOf s.pt)) := by
  have hw : Writes (.segment 32) s { s with ms := storeAll (marshal (wordsOf s.din) (tableOf s.pt)) } :=
    ⟨rfl, htv, hdin, hpt, rfl⟩
  cases (exec_of_writes hw).symm.trans h
  rfl

end Sys2Proof.Machine
end

section
/-! PROOF. The obligations on the marshalling commands (42_marshal.md). -/

namespace Sys2Proof.Proofs

open Sys2Proof.Machine Sys2Proof.Claims

/-- Settles O23: what each command leaves is a function of `DIN` and `PT`, which the two states share. -/
theorem marshallingIsDeterministic : Obligations.MarshallingIsDeterministic := by
  intro s s' t t' htv htv' hdin hpt hmdin hmpt
  have hmdin' : allMarked s'.din := hdin ▸ hmdin
  have hmpt' : allMarked s'.pt := hpt ▸ hmpt
  constructor
  · intro h h'
    rw [ks_of_exec_deriveKey htv hmdin hmpt h, ks_of_exec_deriveKey htv' hmdin' hmpt' h', hdin, hpt]
  · intro h h'
    rw [ms_of_exec_segment htv hmdin hmpt h, ms_of_exec_segment htv' hmdin' hmpt' h', hdin, hpt]

end Sys2Proof.Proofs
end

section
/-! PROOF. The laws of the Feistel lanes (40_datapath.md R112 to R119, 44_feistel.md R170 to R172): the two words each
lane writes, and that decryption undoes encryption, permutation and pairing. -/

namespace Sys2Proof.Machine

open Sys2Proof.Claims

/-- The engine's round function computes `S(E(r) ^ E(k))` (R112). -/
theorem engineF_roundValue (r k : Word) : RoundValue r k (engineF r k) :=
  ⟨_, _, expander_expandedTo _ r, expander_expandedTo _ k, substitute_substitutedTo _ _⟩

@[simp] theorem encryptLanes_evenIdx (f : Word → Word → Word) (msg : Segments) (keys : Fin 4 → Word) (l : Fin 4) :
    encryptLanes f msg keys (evenIdx l) = msg (oddIdx l) := by
  rw [encryptLanes, splitBlocks_evenIdx, encPair, firstHalf_append]

@[simp] theorem encryptLanes_oddIdx (f : Word → Word → Word) (msg : Segments) (keys : Fin 4 → Word) (l : Fin 4) :
    encryptLanes f msg keys (oddIdx l) = msg (evenIdx l) ^^^ f (msg (oddIdx l)) (keys l) := by
  rw [encryptLanes, splitBlocks_oddIdx, encPair, secondHalf_append]

/-- A lane of `DECRYPT` on the ciphertext of that lane recovers its two message words: the round function meets the
same right half twice, and its value cancels (R117). -/
theorem decPair_encryptLanes (f : Word → Word → Word) (msg : Segments) (keys : Fin 4 → Word) (l : Fin 4) :
    decPair f (encryptLanes f msg keys (evenIdx l)) (encryptLanes f msg keys (oddIdx l)) (keys l) =
      consecutiveBlock msg l := by
  rw [encryptLanes_evenIdx, encryptLanes_oddIdx, decPair, BitVec.xor_assoc, BitVec.xor_self, BitVec.xor_zero,
    consecutiveBlock]

/-- The words `2b` and `2b+1` of the marshalled message are the permuted block `b` (R107, R108). -/
theorem consecutiveBlock_marshal (w : Segments) (t : Table) (b : Fin 4) :
    consecutiveBlock (marshal w t) b = applyTable (pairingBlock w b) t := by
  rw [consecutiveBlock, marshal, splitBlocks_evenIdx, splitBlocks_oddIdx, append_halves]

/-- Round by round, permutation by permutation, and the reorder mux against the pairing mux: decryption gives the
words back, whatever the round function and the keys (R172). -/
theorem decryptLanes_encryptLanes_marshal (f : Word → Word → Word) (w : Segments) (keys : Fin 4 → Word) {t u : Table}
    (h : mutualInverse u t) : decryptLanes f (encryptLanes f (marshal w t) keys) keys u = w := by
  refine reorder_of_pairing fun b => ?_
  rw [splitBlocks_evenIdx, splitBlocks_oddIdx, decPair_encryptLanes, consecutiveBlock_marshal, applyTable_applyTable h,
    pairingBlock, firstHalf_append, secondHalf_append]
  exact ⟨rfl, rfl⟩

end Sys2Proof.Machine
end

section
/-! PROOF. The byte packing (20_memory.md R58): the bytes of packed words are the message's bytes. -/

namespace Sys2Proof.Machine

/-- The four bytes of a word, the most significant first (R58). -/
theorem extractLsb'_word (b : Fin 4 → BitVec 8) (r : Fin 4) :
    (b 0 ++ b 1 ++ b 2 ++ b 3 : Word).extractLsb' (24 - 8 * r.val) 8 = b r := by
  ext i hi
  rw [BitVec.getElem_extractLsb']
  match r with
  | 0 | 1 | 2 | 3 => simp only [BitVec.getLsbD_append]; grind

/-- Unpacking undoes packing (R58, R101). -/
theorem unpackBytes_packBytes (m : Fin 32 → BitVec 8) : unpackBytes (packBytes m) = m := funext fun k => by
  have hword := extractLsb'_word (fun r => m ⟨4 * (k.val / 4) + r.val, by omega⟩) ⟨k.val % 4, by omega⟩
  have hk : (⟨4 * (k.val / 4) + k.val % 4, by omega⟩ : Fin 32) = k := Fin.ext (Nat.div_add_mod k.val 4)
  rw [hk] at hword
  exact hword

end Sys2Proof.Machine
end

section
/-! PROOF. What the commands on the path of a message leave when their operands are defined (42_marshal.md R151,
44_feistel.md R170, R171), and how a file reads whose words are known. -/

namespace Sys2Proof.Machine

open Sys2Proof.Claims

@[simp] theorem wordsOf_storeAll (w : Segments) : wordsOf (storeAll w) = w := funext fun j => by
  rw [wordsOf, get_storeAll, written_value]

/-- A vector whose cells all read as written is the stored one. -/
theorem eq_storeAll_of_get {n w : Nat} {v : Vector (Cell w) n} {f : Fin n → BitVec w}
    (h : ∀ j, v.get j = Cell.written (f j)) : v = storeAll f :=
  Vector.ext fun j hj => (h ⟨j, hj⟩).trans (get_storeAll f ⟨j, hj⟩).symm

theorem exec_segment_of_defined {s : State} (htv : s.tv = true) (hdin : allMarked s.din) (hpt : allMarked s.pt) :
    exec (.segment 32) s = .next (ends 0#4 { s with ms := storeAll (marshal (wordsOf s.din) (tableOf s.pt)) }) :=
  exec_of_writes ⟨rfl, htv, hdin, hpt, rfl⟩

theorem exec_encrypt_of_defined {s : State} (hms : allMarked s.ms) (hks : oddMarked s.ks) :
    exec .encrypt s = .next (ends 0#4 { s with
      dout := storeAll (encryptLanes engineF (wordsOf s.ms) fun l => wordsOf s.ks (oddIdx l)) }) :=
  exec_of_writes ⟨hms, hks, rfl⟩

theorem exec_decrypt_of_defined {s : State} (htv : s.tv = true) (hdin : allMarked s.din) (hks : oddMarked s.ks)
    (hpti : allMarked s.pti) :
    exec .decrypt s = .next (ends 0#4 { s with
      dout := storeAll
        (decryptLanes engineF (wordsOf s.din) (fun l => wordsOf s.ks (oddIdx l)) (tableOf s.pti)) }) :=
  exec_of_writes ⟨htv, hdin, hks, hpti, rfl⟩

end Sys2Proof.Machine
end

section
/-! PROOF. The obligations on the Feistel commands (44_feistel.md). -/

namespace Sys2Proof.Proofs

open Sys2Proof.Machine Sys2Proof.Claims

/-- Settles O24: the two words of each lane, the odd one with the round value it is combined with. -/
theorem encryptRunsOneRoundPerLane : Obligations.EncryptRunsOneRoundPerLane := by
  intro s hms hks
  refine ⟨_, exec_encrypt_of_defined hms hks, allMarked_storeAll _, fun l => ?_, rfl⟩
  simp only [ends, wordsOf_storeAll, encryptLanes_evenIdx, encryptLanes_oddIdx, ← BitVec.xor_assoc, BitVec.xor_self,
    BitVec.zero_xor, true_and]
  exact engineF_roundValue _ _

/-- Settles O26: each command finds its operands where the command before left them, and the datapath's round trip
gives the words back. -/
theorem decryptOfEncryptGivesThePlaintext : Obligations.DecryptOfEncryptGivesThePlaintext := by
  intro s e d w htv htables hdin hms hks hcopy hkeys hdtv hdpti
  obtain ⟨-, hinv⟩ := htables.inverses
  obtain ⟨hpt, hpti, -⟩ := htables
  have hsdin : s.din = storeAll w := eq_storeAll_of_get hdin
  have hseg := exec_segment_of_defined htv (hsdin ▸ allMarked_storeAll w) hpt
  have hems : e.ms = storeAll (marshal (wordsOf s.din) (tableOf s.pt)) := hms _ hseg
  have henc := exec_encrypt_of_defined (hems ▸ allMarked_storeAll _) hks
  have hddin : d.din = storeAll (encryptLanes engineF (wordsOf e.ms) fun l => wordsOf e.ks (oddIdx l)) := hcopy _ henc
  have hdks : oddMarked d.ks := fun l => by rw [hkeys l]; exact hks l
  have hdec := exec_decrypt_of_defined hdtv (hddin ▸ allMarked_storeAll _) hdks (hdpti ▸ hpti)
  have hsame : (fun l => wordsOf d.ks (oddIdx l)) = fun l => wordsOf e.ks (oddIdx l) :=
    funext fun l => congrArg Cell.value (hkeys l)
  rw [hddin, hems, hsdin, hdpti, hsame, wordsOf_storeAll, wordsOf_storeAll, wordsOf_storeAll,
    decryptLanes_encryptLanes_marshal _ _ _ hinv] at hdec
  refine ⟨_, _, _, hseg, henc, hdec, rfl, rfl, rfl, get_storeAll w, ?_⟩
  rintro m rfl
  exact (congrArg unpackBytes (wordsOf_storeAll _)).trans (unpackBytes_packBytes m)

end Sys2Proof.Proofs
end

section
/-! PROOF. The obligation on the commands that end with an error (60_exceptions.md R204). -/

namespace Sys2Proof.Machine

/-- The completion of R203 under a nonzero code: the status fields it sets, and all else as it was (R204). -/
theorem complete_of_code_ne_zero {e : ErrCode} (h : codeOf e ≠ 0#4) (s : State) :
    complete e s = { s with errcode := codeOf e, err := true, done := true, busy := false, pend := none } := by
  rw [complete, show errFlag e = true from bne_iff_ne.mpr h]

end Sys2Proof.Machine

namespace Sys2Proof.Proofs

open Sys2Proof.Machine Sys2Proof.Claims

/-- Settles O11: of the three ways a command ends, only the error reports a nonzero code without a fault, and there
nothing was written before it completed. -/
theorem errorsAreAllOrNothing : Obligations.ErrorsAreAllOrNothing := by
  intro i s t _ h hf hc
  rcases exec_cases h with ⟨e, -, rfl⟩ | ⟨-, -, rfl⟩ | ⟨s', -, rfl⟩
  · exact complete_of_code_ne_zero hc s
  · exact absurd hf (Option.some_ne_none _)
  · exact absurd rfl hc

end Sys2Proof.Proofs
end

section
/-! PROOF. The round trip between commands and their words (30_encoding.md R70, R79): what the decoder's success says of
the word's fields, and the encoder's word as arithmetic. -/

namespace Sys2Proof

/-- The fields of every command's word, from the law of each command. -/
theorem encodingFields (i : Instr) : Laws.EncodingFields.Statement i :=
  match i with
  | .nop => Laws.EncodingFields.nop
  | .gen => Laws.EncodingFields.gen
  | .invert => Laws.EncodingFields.invert
  | .verify => Laws.EncodingFields.verify
  | .permFwd => Laws.EncodingFields.permFwd
  | .permInv => Laws.EncodingFields.permInv
  | .deriveKey => Laws.EncodingFields.deriveKey
  | .segment len => Laws.EncodingFields.segment len
  | .encrypt => Laws.EncodingFields.encrypt
  | .decrypt => Laws.EncodingFields.decrypt
  | .expand => Laws.EncodingFields.expand
  | .subst => Laws.EncodingFields.subst

/-- Only `SEGMENT`, opcode `0x07`, carries a length (R73). -/
theorem opcodeOf_segment_or_lenOf_zero (i : Instr) : opcodeOf i = 0x07 ∨ lenOf i = 0 := by
  cases i with
  | segment len => exact .inl rfl
  | _ => exact .inr rfl

/-- A word decodes to a command only where the opcode map has it and the reserved bits are clear (R74). -/
theorem fields_of_decode_eq_ok {w : Word} {i : Instr} (h : decode w = .ok i) :
    commandOf (opField w) (lenField w) = some i ∧ rsvdField w = 0 ∧ (opField w = 0x07 ∨ lenField w = 0) := by
  have hop : opField w ≤ 0x0B := by
    by_contra hgt
    cases h.symm.trans (decode_of_opField_gt (not_le.mp hgt))
  have hrsvd : rsvdField w = 0 := by
    by_contra hr
    cases h.symm.trans (decode_of_rsvdField_ne_zero hop hr)
  have hlen : opField w = 0x07 ∨ lenField w = 0 := by
    by_contra hl
    obtain ⟨hseg, hl⟩ := not_or.mp hl
    cases h.symm.trans (decode_of_lenField_ne_zero hop hseg hl)
  obtain ⟨j, hj⟩ := exists_commandOf_of_le (lenField w) hop
  cases h.symm.trans (decode_of_commandOf hj hrsvd hlen)
  exact ⟨hj, hrsvd, hlen⟩

/-- The opcode map is inverse to the numbering of the commands; the length reaches `SEGMENT` alone (R72, R73). -/
theorem commandOf_eq_some {op len : Nat} {i : Instr} (h : commandOf op len = some i) (hlen : op = 0x07 ∨ len = 0) :
    opcodeOf i = op ∧ lenOf i = len := by
  match op, h with
  | 7, h => cases h; exact ⟨rfl, rfl⟩
  | 0, h | 1, h | 2, h | 3, h | 4, h | 5, h | 6, h | 8, h | 9, h | 10, h | 11, h =>
    obtain rfl : len = 0 := hlen.resolve_left (by decide)
    cases h
    exact ⟨rfl, rfl⟩

/-- `enc(M, len)` is `OP` in the low byte and `len` above it (R79). -/
theorem encode_toNat {i : Instr} (hop : opcodeOf i < 2 ^ 8) (hlen : lenOf i < 2 ^ 8) :
    (encode i).toNat = lenOf i * 2 ^ 8 + opcodeOf i := by
  have hl : lenOf i <<< 8 < 2 ^ 32 := by rw [Nat.shiftLeft_eq]; omega
  simp (disch := omega) only [encode, BitVec.toNat_or, BitVec.toNat_shiftLeft, BitVec.toNat_ofNat, Nat.mod_eq_of_lt]
  rw [← Nat.shiftLeft_add_eq_or_of_lt hop, Nat.shiftLeft_eq]

/-- A command whose length fits the `LEN` field is well-formed (R71). -/
theorem wellFormed_of_lenOf_lt {i : Instr} (h : lenOf i < 256) : WellFormed i = true := by
  cases i with
  | segment len => exact decide_eq_true h
  | _ => rfl

end Sys2Proof
end

section
/-! PROOF. The obligations on the round trip between commands and words (30_encoding.md sections 1 and 5). -/

namespace Sys2Proof.Proofs

/-- Settles O1: the word's fields are the command's opcode and length, and the opcode map gives the command back. -/
theorem decodeOfEncodeIsTheCommand : Obligations.DecodeOfEncodeIsTheCommand := by
  intro i hwf
  obtain ⟨hop, hlen, hrsvd, hmap⟩ := encodingFields i hwf
  refine decode_of_commandOf ?_ hrsvd ?_
  · rw [hop, hlen, hmap]
  · rw [hop, hlen]
    exact opcodeOf_segment_or_lenOf_zero i

/-- Settles O2: the three fields of a decoded word are the command's, and together they are all 32 bits. -/
theorem encodeOfDecodedWordIsTheWord : Obligations.EncodeOfDecodedWordIsTheWord := by
  intro w i h
  obtain ⟨hmap, hrsvd, hlen⟩ := fields_of_decode_eq_ok h
  obtain ⟨hi, hl⟩ := commandOf_eq_some hmap hlen
  rw [opField_eq] at hi
  rw [lenField_eq] at hl
  rw [rsvdField_eq] at hrsvd
  refine ⟨BitVec.eq_of_toNat_eq ?_, wellFormed_of_lenOf_lt (by omega)⟩
  rw [encode_toNat (by omega) (by omega)]
  omega

end Sys2Proof.Proofs
end

section
/-! PROOF. What a host access can do, said once for all accesses (20_memory.md R52 to R57), and what it leaves alone. -/

namespace Sys2Proof.Machine

open Sys2Proof.Claims

/-- An offset names a register exactly when it is the register's (R51). -/
theorem regAt_eq_some_iff {off : Nat} {r : Reg} : regAt off = some r ↔ off = regOffset r := by
  constructor
  · intro h
    by_cases hm : Mapped off
    · obtain ⟨r', rfl⟩ := exists_reg_of_mapped hm
      rw [Option.some.inj ((regAt_regOffset r').symm.trans h)]
    · cases (regAt_of_not_mapped hm).symm.trans h
  · rintro rfl
    exact regAt_regOffset r

/-- An address of the window is `BASE` and the offset (R50). -/
theorem eq_base_add_of_windowOffset {addr off : Nat} (h : windowOffset addr = some off) : addr = Config.base + off := by
  rw [windowOffset] at h
  split at h
  · cases h; omega
  · cases h

/-- A write passes the checks of R52 only with four bytes at a register's offset of an engine that is not busy. -/
theorem checkOffset_write_eq_ok {s : State} {off size : Nat} {r : Reg} (h : checkOffset s true off size = .ok r) :
    size = 4 ∧ off = regOffset r ∧ s.busy = false := by
  have hvalid : size = 4 ∧ Mapped off := by
    by_contra hn
    cases (checkOffset_busError (s := s) (isWrite := true) (not_and_or.mp hn)).symm.trans h
  obtain ⟨rfl, hm⟩ := hvalid
  obtain ⟨r', rfl⟩ := exists_reg_of_mapped hm
  cases hb : s.busy with
  | true => cases (checkOffset_busy hb (show busyAllows true r' = false from rfl)).symm.trans h
  | false =>
    rw [checkOffset_regOffset, hb] at h
    cases h
    exact ⟨rfl, rfl, rfl⟩

/-- A write is accepted only at the address of a register, with four bytes, by an engine that is not busy. -/
theorem hostWrite_eq_ok {s t : State} {addr size : Nat} {v : Word} (h : hostWrite s addr size v = .ok t) :
    ∃ r, addr = regAddress r ∧ size = 4 ∧ s.busy = false ∧ t = writeReg v s r := by
  rw [hostWrite] at h
  split at h
  · cases h
  next off hoff =>
    rw [writeOffset] at h
    split at h
    · cases h
    next r hr =>
      obtain ⟨hsize, rfl, hb⟩ := checkOffset_write_eq_ok hr
      cases h
      exact ⟨r, eq_base_add_of_windowOffset hoff, hsize, hb, rfl⟩

/-- `wait` stays in the host's program exactly while the engine is busy (30_encoding.md R80). -/
theorem hostAccess_wait (s : State) :
    hostAccess .wait s = { s with program := if s.busy then .wait :: s.program else s.program } := by
  simp only [hostAccess, hostRead_status, statusWord_bit0]
  split <;> rfl

/-- The inversion law of `hostAccess`: a fault, a value reported, an accepted write of a register, or a poll. -/
theorem hostAccess_cases (op : HostOp) (s : State) :
    (∃ r, hostAccess op s = recordFault r s) ∨
    (∃ v, hostAccess op s = { s with readLog := v :: s.readLog }) ∨
    (∃ r v, op = .write (regAddress r) 4 v ∧ s.busy = false ∧ hostAccess op s = writeReg v s r) ∨
    ∃ p, hostAccess op s = { s with program := p } := by
  cases op with
  | read addr size =>
    rcases hostAccess_read_cases addr size s with ⟨r, -, h⟩ | ⟨v, -, h⟩
    · exact .inl ⟨r, h⟩
    · exact .inr (.inl ⟨v, h⟩)
  | write addr size v =>
    rcases hostAccess_write_cases addr size v s with ⟨r, h⟩ | ⟨reg, hw, h⟩
    · exact .inl ⟨r, h⟩
    · obtain ⟨r, rfl, rfl, hb, ht⟩ := hostWrite_eq_ok hw
      exact .inr (.inr (.inl ⟨r, v, rfl, hb, h.trans ht⟩))
  | wait => exact .inr (.inr (.inr ⟨_, hostAccess_wait s⟩))

/-- A read that passes the checks of R52 reports the register's value and changes nothing else (R53). -/
theorem hostAccess_read_reg {s : State} {r : Reg} {v : Word} (h : s.busy = false ∨ busyAllows false r = true)
    (hv : readReg s r = some v) :
    hostAccess (.read (regAddress r) 4) s = { s with readLog := v :: s.readLog } := by
  simp only [hostAccess, hostRead_reg r h, hv]

@[simp] theorem writeReg_program (v : Word) (s : State) (r : Reg) : (writeReg v s r).program = s.program := by
  cases r <;> rfl

@[simp] theorem writeReg_schedule (v : Word) (s : State) (r : Reg) : (writeReg v s r).schedule = s.schedule := by
  cases r <;> rfl

/-- No access uses a turn of its own. -/
theorem hostAccess_schedule (op : HostOp) (s : State) : (hostAccess op s).schedule = s.schedule := by
  rcases hostAccess_cases op s with ⟨r, h⟩ | ⟨v, h⟩ | ⟨r, v, -, -, h⟩ | ⟨p, h⟩
  · rw [h, recordFault_schedule]
  · rw [h]
  · rw [h, writeReg_schedule]
  · rw [h]

end Sys2Proof.Machine
end

section
/-! PROOF. Who moves in a step (10_state.md R20, 30_encoding.md R76, 70_reset_and_hazards.md R240), one law per kind of
turn. -/

namespace Sys2Proof.Machine

open Sys2Proof.Claims

/-- The model's use of a turn is the statements'. -/
theorem popTurn_eq_turnUsed (s : State) : popTurn s = turnUsed s := rfl

/-- Without a fault and without the reset input a step is that of the agent who moves. -/
theorem step_of_running {s : State} (hfault : s.fault = none) (hreset : s.schedule.head? ≠ some .reset) :
    step s = agentStep s := by
  rw [step, if_neg (by simp [resetDue, hreset]), hfault]

/-- On the engine's turn a step is the engine's. -/
theorem step_of_engineTurn {s : State} {w : Word} (h : EngineTurn s w) : step s = engineStep (turnUsed s) := by
  obtain ⟨hfault, hpend, hturn⟩ := h
  have hready : engineReady s = true := by rw [engineReady, hpend]; rfl
  have hmove : s.schedule.head? ≠ some .reset ∧ mover s = .engine := by
    rcases hturn with hs | ⟨r, hs⟩ | ⟨hp, r, hs⟩
    · simp [mover, hs, hready]
    · simp [mover, hs, hready]
    · simp [mover, hs, hready, hostReady, hp]
  obtain ⟨hreset, hmover⟩ := hmove
  rw [step_of_running hfault hreset, agentStep, hmover, popTurn_eq_turnUsed]

theorem pend_of_engineTurn {s : State} {w : Word} (h : EngineTurn s w) : (turnUsed s).pend = some w := by
  obtain ⟨-, hpend, -⟩ := h
  exact hpend

/-- On the engine's turn a step is the execution of the decoded word. -/
theorem step_of_decode_ok {s : State} {w : Word} {i : Instr} (h : EngineTurn s w) (hd : decode w = .ok i) :
    step s = exec i (turnUsed s) := by
  simp only [step_of_engineTurn h, engineStep, pend_of_engineTurn h, hd]

/-- On the engine's turn a word that does not decode completes with the decoder's error. -/
theorem step_of_decode_error {s : State} {w : Word} {e : ErrCode} (h : EngineTurn s w) (hd : decode w = .error e) :
    step s = .next (ends (codeOf e) (turnUsed s)) := by
  simp only [step_of_engineTurn h, engineStep, pend_of_engineTurn h, hd, cmdError, complete_eq_ends]

/-- On the host's turn a step is the next access of its program. -/
theorem step_of_hostTurn {s : State} {op : HostOp} {rest : List HostOp} (h : HostTurn s op rest) :
    step s = .next (hostAccess op { turnUsed s with program := rest }) := by
  obtain ⟨hfault, hprogram, hturn⟩ := h
  have hready : hostReady s = true := by rw [hostReady, hprogram]; rfl
  have hmove : s.schedule.head? ≠ some .reset ∧ mover s = .host := by
    rcases hturn with ⟨r, hs⟩ | ⟨hp, hs | ⟨r, hs⟩⟩
    · simp [mover, hs, hready]
    · simp [mover, hs, hready, engineReady, hp]
    · simp [mover, hs, hready, engineReady, hp]
  obtain ⟨hreset, hmover⟩ := hmove
  have haccess : hostStep (popTurn s) = hostAccess op { turnUsed s with program := rest } := by
    rw [hostStep, popTurn_program, hprogram, popTurn_eq_turnUsed]
  rw [step_of_running hfault hreset, agentStep, hmover, haccess]

/-- With nothing for either agent to do, a step uses a turn. -/
theorem step_of_idle {s : State} (hfault : s.fault = none) (hpend : s.pend = none) (hprogram : s.program = [])
    (hreset : s.schedule.head? ≠ some .reset) : step s = .next (turnUsed s) := by
  have hmover : mover s = .idle := by simp [mover, engineReady, hpend, hostReady, hprogram]
  rw [step_of_running hfault hreset, agentStep, hmover, popTurn_eq_turnUsed]

/-- The reset input comes before every agent and every fault. -/
theorem step_of_reset {s : State} {later : List Turn} (h : s.schedule = .reset :: later) :
    step s = .next (resetEngine (turnUsed s)) := by
  rw [step, if_pos (by simp [resetDue, h]), popTurn_eq_turnUsed]

end Sys2Proof.Machine
end

section
/-! PROOF. The invariant of reachable states (10_state.md R27, R30, R37), kept by each operation a step is made of. -/

namespace Sys2Proof.Machine

open Sys2Proof.Claims

/-! ### Stored tables -/

@[simp] theorem tableOf_storeTable (t : Table) : tableOf (storeTable t) = t := funext fun i => by
  rw [tableOf, storeTable, get_storeAll, written_value, entryIndex_indexEntry]

theorem allMarked_storeTable (t : Table) : allMarked (storeTable t) := allMarked_storeAll _

theorem canonical_storeTable (t : Table) : allCanonical (storeTable t) := canonical_storeAll _

/-- The draw of `GEN` is a bijection (41_control_table.md R131). -/
theorem genDraw_isBijection (k : Nat) : isBijection fun i => Config.genDraw k i :=
  (isBijection_iff_injective _).mpr (Config.genDraw k).injective

/-! ### The part of the invariant about cells and tables, which commands can change -/

/-- The canonical form of every file and table (log entry 2). -/
def CellsCanonical (s : State) : Prop :=
  allCanonical s.din ∧ allCanonical s.dout ∧ allCanonical s.ks ∧ allCanonical s.ms ∧ allCanonical s.pt ∧
    allCanonical s.pti

/-- Every write of a command is of whole cells, so the canonical form stays. -/
theorem Writes.keeps_canonical {i : Instr} {s s' : State} (h : Writes i s s') (hc : CellsCanonical s) :
    CellsCanonical s' := by
  obtain ⟨hdin, hdout, hks, hms, hpt, hpti⟩ := hc
  cases i with
  | nop => cases h; exact ⟨hdin, hdout, hks, hms, hpt, hpti⟩
  | gen => cases h; exact ⟨hdin, hdout, hks, hms, canonical_storeTable _, canonical_storeTable _⟩
  | invert => obtain ⟨-, -, rfl⟩ := h; exact ⟨hdin, hdout, hks, hms, hpt, canonical_storeTable _⟩
  | verify => obtain ⟨-, -, -, rfl⟩ := h; exact ⟨hdin, hdout, hks, hms, hpt, hpti⟩
  | permFwd => obtain ⟨-, -, -, rfl⟩ := h; exact ⟨hdin, canonical_storeAll _, hks, hms, hpt, hpti⟩
  | permInv => obtain ⟨-, -, -, rfl⟩ := h; exact ⟨hdin, canonical_storeAll _, hks, hms, hpt, hpti⟩
  | deriveKey => obtain ⟨-, -, -, rfl⟩ := h; exact ⟨hdin, hdout, canonical_storeAll _, hms, hpt, hpti⟩
  | segment len => obtain ⟨-, -, -, -, rfl⟩ := h; exact ⟨hdin, hdout, hks, canonical_storeAll _, hpt, hpti⟩
  | encrypt => obtain ⟨-, -, rfl⟩ := h; exact ⟨hdin, canonical_storeAll _, hks, hms, hpt, hpti⟩
  | decrypt => obtain ⟨-, -, -, -, rfl⟩ := h; exact ⟨hdin, canonical_storeAll _, hks, hms, hpt, hpti⟩
  | expand =>
    obtain ⟨-, rfl⟩ := h
    exact ⟨hdin, canonical_storeAt _ _ (canonical_storeAt _ _ hdout), hks, hms, hpt, hpti⟩
  | subst => obtain ⟨-, -, rfl⟩ := h; exact ⟨hdin, canonical_storeAt _ _ hdout, hks, hms, hpt, hpti⟩

/-- A command leaves TV and the tables as they were, or makes the tables valid (R37). -/
theorem Writes.tables {i : Instr} {s s' : State} (h : Writes i s s') :
    (s'.tv = s.tv ∧ s'.pt = s.pt ∧ s'.pti = s.pti) ∨ TablesValid s' := by
  cases i with
  | gen =>
    cases h
    refine .inr ⟨allMarked_storeTable _, allMarked_storeTable _, ?_⟩
    rw [tableOf_storeTable, tableOf_storeTable]
    exact inverseOf_apply (genDraw_isBijection _)
  | invert =>
    obtain ⟨hpt, hb, rfl⟩ := h
    refine .inr ⟨hpt, allMarked_storeTable _, ?_⟩
    rw [tableOf_storeTable]
    exact inverseOf_apply hb
  | verify => obtain ⟨hpt, hpti, hm, rfl⟩ := h; exact .inr ⟨hpt, hpti, hm⟩
  | nop => cases h; exact .inl ⟨rfl, rfl, rfl⟩
  | permFwd => obtain ⟨-, -, -, rfl⟩ := h; exact .inl ⟨rfl, rfl, rfl⟩
  | permInv => obtain ⟨-, -, -, rfl⟩ := h; exact .inl ⟨rfl, rfl, rfl⟩
  | deriveKey => obtain ⟨-, -, -, rfl⟩ := h; exact .inl ⟨rfl, rfl, rfl⟩
  | segment len => obtain ⟨-, -, -, -, rfl⟩ := h; exact .inl ⟨rfl, rfl, rfl⟩
  | encrypt => obtain ⟨-, -, rfl⟩ := h; exact .inl ⟨rfl, rfl, rfl⟩
  | decrypt => obtain ⟨-, -, -, -, rfl⟩ := h; exact .inl ⟨rfl, rfl, rfl⟩
  | expand => obtain ⟨-, rfl⟩ := h; exact .inl ⟨rfl, rfl, rfl⟩
  | subst => obtain ⟨-, -, rfl⟩ := h; exact .inl ⟨rfl, rfl, rfl⟩

/-- The table-valid invariant is kept by a command's writes. -/
theorem Writes.keeps_tablesValid {i : Instr} {s s' : State} (h : Writes i s s') (ht : s.tv = true → TablesValid s) :
    s'.tv = true → TablesValid s' := by
  intro htv
  rcases h.tables with ⟨hsame, hpt, hpti⟩ | hvalid
  · obtain ⟨hm, hm', hinv⟩ := ht (hsame ▸ htv)
    exact ⟨hpt ▸ hm, hpti ▸ hm', by rw [hpt, hpti]; exact hinv⟩
  · exact hvalid

/-! ### The invariant through each operation -/

/-- The invariant speaks of no fault and of nothing of the environment. -/
theorem Inv.of_environment {s : State} (h : Inv s) (f : Option Fault) (d : Nat) (p : List HostOp) (l : List Turn)
    (log : List Word) : Inv { s with fault := f, draws := d, program := p, schedule := l, readLog := log } :=
  ⟨h.pendBusy, h.errCode, h.codeLegal, h.busyClear, h.errDone, h.tables, h.canonical⟩

/-- Codes 7 to 15 are not produced (60_exceptions.md R200). -/
theorem codeOf_toNat_le (e : ErrCode) : (codeOf e).toNat ≤ 6 := by cases e <;> decide

/-- A completion reports what R203 allows, whatever the flags were. -/
theorem inv_complete {s : State} (e : ErrCode) (ht : s.tv = true → TablesValid s) (hc : CellsCanonical s) :
    Inv (complete e s) where
  pendBusy := rfl
  errCode := rfl
  codeLegal := codeOf_toNat_le e
  busyClear := nofun
  errDone := fun _ => rfl
  tables := ht
  canonical := hc

theorem inv_accept {s : State} (h : Inv s) (w : Word) : Inv (accept w s) where
  pendBusy := rfl
  errCode := rfl
  codeLegal := Nat.zero_le 6
  busyClear := fun _ => ⟨rfl, rfl⟩
  errDone := nofun
  tables := h.tables
  canonical := h.canonical

/-- A write of a cell keeps the canonical form, and one of a table entry clears TV. -/
theorem inv_writeReg {s : State} (h : Inv s) (v : Word) (r : Reg) : Inv (writeReg v s r) := by
  obtain ⟨hdin, hdout, hks, hms, hpt, hpti⟩ := h.canonical
  cases r with
  | cmd => exact inv_accept h v
  | status => exact h
  | errcode => exact h
  | dout j => exact h
  | din j =>
    exact { h with canonical := ⟨canonical_storeAt _ _ hdin, hdout, hks, hms, hpt, hpti⟩ }
  | ks j =>
    exact { h with canonical := ⟨hdin, hdout, canonical_storeAt _ _ hks, hms, hpt, hpti⟩ }
  | ms j =>
    exact { h with canonical := ⟨hdin, hdout, hks, canonical_storeAt _ _ hms, hpt, hpti⟩ }
  | pt i =>
    exact { h with
      tables := nofun
      canonical := ⟨hdin, hdout, hks, hms, canonical_storeAt _ _ hpt, hpti⟩ }
  | pti i =>
    exact { h with
      tables := nofun
      canonical := ⟨hdin, hdout, hks, hms, hpt, canonical_storeAt _ _ hpti⟩ }

theorem inv_hostAccess {s : State} (h : Inv s) (op : HostOp) : Inv (hostAccess op s) := by
  rcases hostAccess_cases op s with ⟨r, ht⟩ | ⟨v, ht⟩ | ⟨r, v, -, -, ht⟩ | ⟨p, ht⟩ <;> rw [ht]
  · exact h.of_environment ..
  · exact h.of_environment ..
  · exact inv_writeReg h v r
  · exact h.of_environment ..

theorem inv_exec {i : Instr} {s t : State} (h : Inv s) (he : exec i s = .next t) : Inv t := by
  rcases exec_cases he with ⟨e, -, rfl⟩ | ⟨-, -, rfl⟩ | ⟨s', hw, rfl⟩
  · exact inv_complete e h.tables h.canonical
  · exact h.of_environment ..
  · exact inv_complete .ok (hw.keeps_tablesValid h.tables) (hw.keeps_canonical h.canonical)

theorem inv_reset : Inv State.reset where
  pendBusy := rfl
  errCode := rfl
  codeLegal := Nat.zero_le 6
  busyClear := nofun
  errDone := nofun
  tables := nofun
  canonical := ⟨canonical_atReset, canonical_atReset, canonical_atReset, canonical_atReset, canonical_atReset,
    canonical_atReset⟩

end Sys2Proof.Machine
end

section
/-! PROOF. The obligations on the invariant (10_state.md sections 4, 5, 7 and 8). -/

namespace Sys2Proof.Proofs

open Sys2Proof.Machine Sys2Proof.Claims

/-- Settles O50: by the inversion law of `step`, each kind of step is one operation that keeps the invariant. -/
theorem everyStepKeepsTheInvariant : Obligations.EveryStepKeepsTheInvariant := by
  intro s t h hstep
  have hturn : Inv (popTurn s) := h.of_environment ..
  rcases step_cases hstep with ⟨-, rfl⟩ | ⟨-, -, ⟨op, rest, -, rfl⟩ | ⟨w, -, ⟨e, -, rfl⟩ | ⟨i, -, he⟩⟩ | ⟨-, -, rfl⟩⟩
  · exact inv_reset.of_environment ..
  · exact inv_hostAccess (hturn.of_environment _ _ rest _ _) op
  · exact inv_complete e hturn.tables hturn.canonical
  · exact inv_exec hturn he
  · exact hturn

/-- Settles O51: the invariant's base case. -/
theorem resetMeetsTheInvariant : Obligations.ResetMeetsTheInvariant := inv_reset

end Sys2Proof.Proofs
end

section
/-! PROOF. Runs of steps, and the bound on how long a pending command takes (30_encoding.md R76). -/

namespace Sys2Proof.Machine

open Sys2Proof.Claims

theorem run_succ_of_step {s t : State} (h : step s = .next t) (k : Nat) : core.run (k + 1) s = core.run k t := by
  have hcore : core.step s = .next t := h
  simp only [Host.Core.run, hcore]

/-- The engine's step ends the pending command: it completes, or it faults (R76). -/
theorem engineStep_ends {s : State} {w : Word} (hpend : s.pend = some w) :
    ∃ t, engineStep s = .next t ∧ (t.pend = none ∨ t.fault ≠ none) := by
  simp only [engineStep, hpend]
  cases decode w with
  | error e => exact ⟨_, rfl, .inl rfl⟩
  | ok i =>
    obtain ⟨t, ht⟩ := exec_is_next i s
    refine ⟨t, ht, ?_⟩
    rcases exec_cases ht with ⟨e, -, rfl⟩ | ⟨-, -, rfl⟩ | ⟨s', -, rfl⟩
    · exact .inl rfl
    · exact .inr (Option.some_ne_none _)
    · exact .inl rfl

/-- What "completes, faults or is discarded within `k` steps" says of the state the steps start from (R76). -/
def CompletesWithin (k : Nat) (s : State) : Prop :=
  ∃ j t, j ≤ k ∧ core.run j s = .next t ∧ (t.pend = none ∨ t.fault ≠ none)

theorem completesWithin_of_ended {s : State} (h : s.pend = none ∨ s.fault ≠ none) (k : Nat) : CompletesWithin k s :=
  ⟨0, s, Nat.zero_le k, rfl, h⟩

theorem completesWithin_of_step {s t : State} {k : Nat} (h : step s = .next t) (ht : CompletesWithin k t) :
    CompletesWithin (k + 1) s := by
  obtain ⟨j, u, hj, hrun, hu⟩ := ht
  exact ⟨j + 1, u, Nat.succ_le_succ hj, (run_succ_of_step h j).trans hrun, hu⟩

theorem completesWithin_of_engineTurn {s : State} {w : Word} (h : EngineTurn s w) (k : Nat) :
    CompletesWithin (k + 1) s := by
  obtain ⟨t, ht, hended⟩ := engineStep_ends (pend_of_engineTurn h)
  exact completesWithin_of_step ((step_of_engineTurn h).trans ht) (completesWithin_of_ended hended k)

/-- A pending command is done by the end of the schedule: each turn is the engine's or uses up one of the host's. -/
theorem completesWithin_of_schedule (l : List Turn) :
    ∀ (s : State) (w : Word), s.schedule = l → s.fault = none → s.pend = some w → CompletesWithin (l.length + 1) s := by
  induction l with
  | nil => exact fun s w hs hf hp => completesWithin_of_engineTurn ⟨hf, hp, .inl hs⟩ 0
  | cons turn l ih =>
    intro s w hs hf hp
    cases turn with
    | reset => exact completesWithin_of_step (step_of_reset hs) (completesWithin_of_ended (.inl rfl) _)
    | engine => exact completesWithin_of_engineTurn ⟨hf, hp, .inr (.inl ⟨l, hs⟩)⟩ _
    | host =>
      cases hprogram : s.program with
      | nil => exact completesWithin_of_engineTurn ⟨hf, hp, .inr (.inr ⟨hprogram, l, hs⟩)⟩ _
      | cons op rest =>
        refine completesWithin_of_step (step_of_hostTurn ⟨hf, hprogram, .inl ⟨l, hs⟩⟩) ?_
        generalize ht : hostAccess op { turnUsed s with program := rest } = t
        have hl : t.schedule = l := by
          rw [← ht, hostAccess_schedule]
          exact congrArg List.tail hs
        cases htp : t.pend with
        | none => exact completesWithin_of_ended (.inl htp) _
        | some w' =>
          cases htf : t.fault with
          | some r => exact completesWithin_of_ended (.inr (htf ▸ Option.some_ne_none r)) _
          | none => exact ih t w' hl htf htp

end Sys2Proof.Machine
end

section
/-! PROOF. The obligations on the turns of a step: accept, execution, the host's accesses, idling and reset
(30_encoding.md section 3, 60_exceptions.md section 5, 70_reset_and_hazards.md section 1). -/

namespace Sys2Proof.Proofs

open Sys2Proof.Machine Sys2Proof.Claims

/-- Settles O5: the law of the engine's turn on a word that decodes. -/
theorem stepRunsThePendingCommand : Obligations.StepRunsThePendingCommand := fun _ _ _ => step_of_decode_ok

/-- Settles O6: the law of the host's turn. -/
theorem stepMakesTheHostAccess : Obligations.StepMakesTheHostAccess := fun _ _ _ => step_of_hostTurn

/-- Settles O7: the host's turn, and the accepted write of `CMD`. -/
theorem cmdWriteIssuesTheWord : Obligations.CmdWriteIssuesTheWord := by
  intro s w rest hturn hb
  have hwrite : hostAccess (.write (Config.base + 0x000) 4 w) { turnUsed s with program := rest } =
      accept w { turnUsed s with program := rest } := hostAccess_write_reg .cmd w hb
  rw [step_of_hostTurn hturn, hwrite]
  rfl

/-- Settles O8: the `CMD` write leaves the word pending with the engine's turn next. -/
theorem issuedCommandRunsOnTheStateLeft : Obligations.IssuedCommandRunsOnTheStateLeft := by
  intro s w i rest later hfault hbusy hprogram hschedule hdecode
  have hissue := cmdWriteIssuesTheWord s w rest ⟨hfault, hprogram, .inl ⟨_, hschedule⟩⟩ hbusy
  rw [hschedule] at hissue
  exact ⟨_, run_succ_of_step hissue 0, step_of_decode_ok ⟨hfault, rfl, .inr (.inl ⟨later, rfl⟩)⟩ hdecode⟩

/-- Settles O49: the host's turn, and the law of the poll. -/
theorem waitPollsUntilNotBusy : Obligations.WaitPollsUntilNotBusy := by
  intro s rest hturn
  rw [step_of_hostTurn hturn, hostAccess_wait]
  rfl

/-- Settles O52: each flag by its value, each cell as one of a file or table of cells at reset. -/
theorem resetStateHasTheResetValues : Obligations.ResetStateHasTheResetValues := by
  refine ⟨rfl, rfl, rfl, rfl, rfl, rfl, rfl, fun j => ?_, fun i => ?_⟩ <;> simp [State.reset]

/-- Settles O53: the reset turn comes before everything else and takes the engine's state from the reset state. -/
theorem resetDiscardsEverything : Obligations.ResetDiscardsEverything := by
  intro s later h
  exact ⟨_, step_of_reset h, resetStateHasTheResetValues, rfl, congrArg List.tail h⟩

/-- Settles O56: by induction on the number of steps, each of which uses one turn. -/
theorem idleEngineKeepsItsState : Obligations.IdleEngineKeepsItsState := by
  intro k
  induction k with
  | zero => exact fun s _ _ _ _ => rfl
  | succ k ih =>
    intro s hfault hpend hprogram hreset
    have hnext : s.schedule.head? ≠ some .reset := fun h => hreset (List.mem_of_head? h)
    have hlater : Turn.reset ∉ (turnUsed s).schedule := fun h => hreset (List.mem_of_mem_tail h)
    rw [run_succ_of_step (step_of_idle hfault hpend hprogram hnext), ih (turnUsed s) hfault hpend hprogram hlater]
    simp [turnUsed]

/-- Settles O57: by induction on the schedule. -/
theorem acceptedCommandCompletes : Obligations.AcceptedCommandCompletes := fun s w =>
  completesWithin_of_schedule s.schedule s w rfl

end Sys2Proof.Proofs
end

section
/-! PROOF. How a pending word ends (60_exceptions.md R202, R203, R207): the error it raises or the fault it records, with
nothing else changed. -/

namespace Sys2Proof.Machine

open Sys2Proof.Claims

/-- The decoder on a word whose fields are known and whose reserved bits are clear (R72, R74). -/
theorem decode_of_fields {w : Word} {op len : Nat} {i : Instr} (hop : opField w = op) (hlen : lenField w = len)
    (hrsvd : rsvdField w = 0) (hl : op = 0x07 ∨ len = 0) (hi : commandOf op len = some i) : decode w = .ok i := by
  subst hop hlen
  exact decode_of_commandOf hi hrsvd hl

/-- A command that raises an error ends as R203 writes it. -/
theorem exec_ends_of_raises {i : Instr} {s : State} {e : ErrCode} (h : Raises i s e) :
    exec i s = .next (ends (codeOf e) s) := by
  rw [exec_of_raises h, complete_eq_ends]

/-- On the engine's turn a decoded command that raises an error ends with it and changes nothing else. -/
theorem step_of_raises {s : State} {w : Word} {i : Instr} {e : ErrCode} (h : EngineTurn s w) (hd : decode w = .ok i)
    (hr : Raises i (turnUsed s) e) : step s = .next (ends (codeOf e) (turnUsed s)) := by
  rw [step_of_decode_ok h hd, exec_ends_of_raises hr]

theorem raises_length {len : Nat} (h : len ≠ 32) (s : State) : Raises (.segment len) s .invalidMessageLength :=
  ⟨len, rfl, h⟩

/-- Only a command that faults changes the fault record, and then nothing else (R207). -/
theorem exec_faulted {i : Instr} {s t : State} (h : exec i s = .next t) (hf : t.fault ≠ s.fault) :
    passesGate i s ∧ readsUndefined i s ∧ t = faulted .unwrittenRead s := by
  rcases exec_cases h with ⟨e, -, rfl⟩ | hfault | ⟨s', hw, rfl⟩
  · exact absurd rfl hf
  · exact hfault
  · obtain ⟨-, hsame, -⟩ := hw.untouched
    exact absurd hsame hf

end Sys2Proof.Machine
end

section
/-! PROOF. The obligations on errors and faults (30_encoding.md section 2, 60_exceptions.md sections 1 to 3,
70_reset_and_hazards.md section 3). -/

namespace Sys2Proof.Proofs

open Sys2Proof.Machine Sys2Proof.Claims

/-- Settles O9: the two errors of the decoder, then the four a command raises, each on the fields that name it. -/
theorem errorsComeInOrder : Obligations.ErrorsComeInOrder := by
  intro s w op len rsvd hturn hop hlen hrsvd
  replace hop : opField w = op := (opField_eq w).trans hop.symm
  replace hlen : lenField w = len := (lenField_eq w).trans hlen.symm
  replace hrsvd : rsvdField w = rsvd := (rsvdField_eq w).trans hrsvd.symm
  refine ⟨fun h => ?illegal, fun hle h => ?reserved, fun h7 h0 h => ?length, fun h0 h htv => ?gate,
    fun h2 h0 hl h => ?bijection, fun h3 h0 hl h => ?mismatch⟩
  case illegal => exact step_of_decode_error hturn (decode_of_opField_gt (hop ▸ h))
  case reserved =>
    rcases h with h | ⟨hseg, hl⟩
    · exact step_of_decode_error hturn (decode_of_rsvdField_ne_zero (hop ▸ hle) (hrsvd ▸ h))
    · exact step_of_decode_error hturn (decode_of_lenField_ne_zero (hop ▸ hle) (hop ▸ hseg) (hlen ▸ hl))
  case length =>
    subst h7
    exact step_of_raises hturn (decode_of_fields hop hlen (hrsvd.trans h0) (.inl rfl) rfl) (raises_length h _)
  case gate =>
    have hgated : ∀ i, commandOf op len = some i → (op = 0x07 ∨ len = 0) →
        i ∈ [.permFwd, .permInv, .deriveKey, .segment 32, .decrypt] →
        step s = .next (ends (codeOf .tableNotValid) (turnUsed s)) := fun i hi hl hmem =>
      step_of_raises hturn (decode_of_fields hop hlen (hrsvd.trans h0) hl hi) ⟨htv, hmem⟩
    rcases h with ⟨rfl | rfl | rfl | rfl, hl⟩ | ⟨rfl, rfl⟩
    · exact hgated .permFwd rfl (.inr hl) (by decide)
    · exact hgated .permInv rfl (.inr hl) (by decide)
    · exact hgated .deriveKey rfl (.inr hl) (by decide)
    · exact hgated .decrypt rfl (.inr hl) (by decide)
    · exact hgated (.segment 32) rfl (.inl rfl) (by decide)
  case bijection =>
    subst h2
    exact step_of_raises hturn (e := .tableNotBijection) (decode_of_fields hop hlen (hrsvd.trans h0) (.inr hl) rfl)
      ⟨rfl, h⟩
  case mismatch =>
    subst h3
    exact step_of_raises hturn (e := .tableMismatch) (decode_of_fields hop hlen (hrsvd.trans h0) (.inr hl) rfl)
      ⟨rfl, h⟩

/-- Settles O10: the errors of O9, and a `SEGMENT` of 32 bytes, which raises none of length. -/
theorem lengthFieldIsChecked : Obligations.LengthFieldIsChecked := by
  intro s w hturn hrsvd
  obtain ⟨-, hreserved, hlength, -⟩ := errorsComeInOrder s w _ _ _ hturn rfl rfl rfl
  refine ⟨fun h7 => hlength h7 hrsvd, fun h7 hl => ?_, fun hle h7 hl => hreserved hle (.inr ⟨h7, hl⟩)⟩
  have hdecode : decode w = .ok (.segment 32) := decode_of_fields ((opField_eq w).trans h7) ((lenField_eq w).trans hl)
    ((rsvdField_eq w).trans hrsvd) (.inl rfl) rfl
  have hstep := step_of_decode_ok hturn hdecode
  refine ⟨hstep, fun t ht hf hc => ?_⟩
  obtain ⟨len, hsegment, hne⟩ : Raises (.segment 32) (turnUsed s) .invalidMessageLength :=
    raises_of_errcode (hstep.symm.trans ht) hf (by decide) hc
  cases hsegment
  exact hne rfl

/-- Settles O12: the fault of a command, the fault of an access, and the two ways out of a faulted state. -/
theorem faultIsStickyAndChangesNothingElse : Obligations.FaultIsStickyAndChangesNothingElse := by
  refine ⟨fun i s t h hf => ?command, fun op s hf => ?access, fun s r => step_of_fault, fun s t hf h => ?reset,
    fun s hf hended => ?ended⟩
  case command =>
    obtain ⟨-, -, ht⟩ := exec_faulted h hf
    exact ⟨_, ht⟩
  case access =>
    rcases hostAccess_cases op s with ⟨r, h⟩ | ⟨v, h⟩ | ⟨r, v, -, -, h⟩ | ⟨p, h⟩
    · exact ⟨r, h⟩
    · exact absurd (congrArg State.fault h) hf
    · exact absurd ((congrArg State.fault h).trans (writeReg_fault v s r)) hf
    · exact absurd (congrArg State.fault h) hf
  case reset =>
    rcases step_cases h with ⟨hreset, rfl⟩ | ⟨-, hnone, -⟩
    · exact ⟨hreset, rfl⟩
    · exact absurd hnone hf
  case ended =>
    obtain ⟨-, -, hnone⟩ := hended
    exact hf hnone

/-- Settles O13: the fault where the checks pass and an operand is missing, and nowhere else. -/
theorem undefinedOperandFaults : Obligations.UndefinedOperandFaults := by
  refine fun i s hf => ⟨exec_of_undefined, fun t h hne => ?_⟩
  obtain ⟨hpasses, hreads, -⟩ := exec_faulted h (hf ▸ hne)
  exact ⟨hpasses, hreads⟩

/-- Settles O14: `NOP` writes nothing before it completes; `STATUS` is computed for either value of TV. -/
theorem nopCompletes : Obligations.NopCompletes := by
  intro s
  refine ⟨_, exec_of_writes (i := .nop) rfl, complete_eq_ends .ok s, rfl, ?_⟩
  simp only [statusWord, complete_tv, complete_err, complete_done, complete_busy]
  cases s.tv <;> rfl

/-- Settles O48: the write clears TV, and the gate refuses the command. -/
theorem tableWriteClosesTheGate : Obligations.TableWriteClosesTheGate := by
  intro s t off v i hm hge hb ht hi
  obtain ⟨r, rfl⟩ := exists_reg_of_mapped hm
  have htv : t.tv = false := by
    rw [ht]
    exact (congrArg State.tv (hostAccess_write_reg r v hb)).trans (writeReg_tv_of_table v s hge)
  exact exec_ends_of_raises (e := .tableNotValid) ⟨htv, hi⟩

end Sys2Proof.Proofs
end

section
/-! PROOF. What commands and accesses leave alone: the files a command writes, the key words it reads, the table-valid
flag and the marks of the cells (10_state.md R22 to R31, 40_datapath.md R118). -/

namespace Sys2Proof.Machine

open Sys2Proof.Claims

/-! ### The write frame of a command -/

/-- From `s` to `t` only what the rule of command `i` names has changed (10_state.md R22 to R27). -/
def InFrame (i : Instr) (s t : State) : Prop :=
  t.din = s.din ∧ (t.dout ≠ s.dout → i ∈ [.permFwd, .permInv, .encrypt, .decrypt, .expand, .subst]) ∧
    (t.ks ≠ s.ks → i = .deriveKey) ∧ (t.ms ≠ s.ms → i = .segment 32) ∧ (t.pt ≠ s.pt → i = .gen) ∧
    (t.pti ≠ s.pti → i ∈ [.gen, .invert]) ∧ (t.tv ≠ s.tv → i ∈ [.gen, .invert, .verify] ∧ t.tv = true) ∧
    (t.draws ≠ s.draws → i = .gen) ∧ t.program = s.program ∧ t.schedule = s.schedule ∧ t.readLog = s.readLog

theorem inFrame_refl (i : Instr) (s : State) : InFrame i s s := by
  simp [InFrame]

/-- The writes of each command stay in its frame. -/
theorem Writes.inFrame {i : Instr} {s s' : State} (h : Writes i s s') : InFrame i s s' := by
  cases i with
  | nop => cases h; exact inFrame_refl _ _
  | gen => cases h; simp [InFrame]
  | invert => obtain ⟨-, -, rfl⟩ := h; simp [InFrame]
  | verify => obtain ⟨-, -, -, rfl⟩ := h; simp [InFrame]
  | permFwd => obtain ⟨-, -, -, rfl⟩ := h; simp [InFrame]
  | permInv => obtain ⟨-, -, -, rfl⟩ := h; simp [InFrame]
  | deriveKey => obtain ⟨-, -, -, rfl⟩ := h; simp [InFrame]
  | segment len => obtain ⟨rfl, -, -, -, rfl⟩ := h; simp [InFrame]
  | encrypt => obtain ⟨-, -, rfl⟩ := h; simp [InFrame]
  | decrypt => obtain ⟨-, -, -, -, rfl⟩ := h; simp [InFrame]
  | expand => obtain ⟨-, rfl⟩ := h; simp [InFrame]
  | subst => obtain ⟨-, -, rfl⟩ := h; simp [InFrame]

/-- Neither completion nor the fault record touches anything a frame is about. -/
theorem exec_inFrame {i : Instr} {s t : State} (h : exec i s = .next t) : InFrame i s t := by
  rcases exec_cases h with ⟨e, -, rfl⟩ | ⟨-, -, rfl⟩ | ⟨s', hw, rfl⟩
  · exact inFrame_refl i s
  · exact inFrame_refl i s
  · exact hw.inFrame

/-! ### The table-valid flag -/

/-- A command that changes TV sets it and ends without an error (R27). -/
theorem exec_tv {i : Instr} {s t : State} (h : exec i s = .next t) (hne : t.tv ≠ s.tv) :
    i ∈ [.gen, .invert, .verify] ∧ t.tv = true ∧ t.errcode = 0#4 ∧ t.err = false ∧ t.busy = false := by
  obtain ⟨-, -, -, -, -, -, htv, -⟩ := exec_inFrame h
  obtain ⟨hi, hset⟩ := htv hne
  rcases exec_cases h with ⟨e, -, rfl⟩ | ⟨-, -, rfl⟩ | ⟨s', -, rfl⟩
  · exact absurd rfl hne
  · exact absurd rfl hne
  · exact ⟨hi, hset, rfl, rfl, rfl⟩

/-- An access that changes TV is an accepted write of a table entry, and clears it (R27). -/
theorem hostAccess_tv {op : HostOp} {s : State} (hne : (hostAccess op s).tv ≠ s.tv) :
    ∃ r v, op = .write (regAddress r) 4 v ∧ 0x100 ≤ regOffset r ∧ s.busy = false ∧
      hostAccess op s = writeReg v s r ∧ (hostAccess op s).tv = false := by
  rcases hostAccess_cases op s with ⟨r, h⟩ | ⟨v, h⟩ | ⟨r, v, hop, hb, h⟩ | ⟨p, h⟩
  · exact absurd (congrArg State.tv h) hne
  · exact absurd (congrArg State.tv h) hne
  · have hr : 0x100 ≤ regOffset r := by
      by_contra hlt
      exact hne ((congrArg State.tv h).trans (writeReg_tv_of_lt v s (not_le.mp hlt)))
    exact ⟨r, v, hop, hr, hb, h, (congrArg State.tv h).trans (writeReg_tv_of_table v s hr)⟩
  · exact absurd (congrArg State.tv h) hne

/-! ### The marks of the cells -/

/-- Every cell defined in `v` is defined in `u`. -/
def MarksIn {n w : Nat} (v u : Vector (Cell w) n) : Prop :=
  ∀ j : Fin n, (v.get j).marked = true → (u.get j).marked = true

theorem marksIn_refl {n w : Nat} (v : Vector (Cell w) n) : MarksIn v v := fun _ => id

theorem marksIn_of_allMarked {n w : Nat} (v : Vector (Cell w) n) {u : Vector (Cell w) n} (h : allMarked u) :
    MarksIn v u := fun j _ => h j

theorem marksIn_storeAt {n w : Nat} (v : Vector (Cell w) n) (j : Fin n) (x : BitVec w) : MarksIn v (storeAt v j x) :=
  fun _ => marked_storeAt j x

theorem marksIn_storeAt_storeAt {n w : Nat} (v : Vector (Cell w) n) (j k : Fin n) (x y : BitVec w) :
    MarksIn v (storeAt (storeAt v j x) k y) := fun _ h => marked_storeAt k y (marked_storeAt j x h)

/-- Every file and table of `t` keeps the cells that are defined in `s` (10_state.md R31). -/
def KeepsMarks (s t : State) : Prop :=
  MarksIn s.din t.din ∧ MarksIn s.dout t.dout ∧ MarksIn s.ks t.ks ∧ MarksIn s.ms t.ms ∧ MarksIn s.pt t.pt ∧
    MarksIn s.pti t.pti

theorem keepsMarks_refl (s : State) : KeepsMarks s s :=
  ⟨marksIn_refl _, marksIn_refl _, marksIn_refl _, marksIn_refl _, marksIn_refl _, marksIn_refl _⟩

theorem keepsMarks_dout {s : State} {v : RegFile} (h : MarksIn s.dout v) : KeepsMarks s { s with dout := v } :=
  ⟨marksIn_refl _, h, marksIn_refl _, marksIn_refl _, marksIn_refl _, marksIn_refl _⟩

/-- A command writes whole files and tables, or single cells of `DOUT`. -/
theorem Writes.keepsMarks {i : Instr} {s s' : State} (h : Writes i s s') : KeepsMarks s s' := by
  obtain ⟨hdin, hdout, hks, hms, hpt, hpti⟩ := keepsMarks_refl s
  have hall {n w : Nat} (v : Vector (Cell w) n) (f : Fin n → BitVec w) : MarksIn v (storeAll f) :=
    marksIn_of_allMarked v (allMarked_storeAll f)
  cases i with
  | nop => cases h; exact ⟨hdin, hdout, hks, hms, hpt, hpti⟩
  | gen => cases h; exact ⟨hdin, hdout, hks, hms, hall _ _, hall _ _⟩
  | invert => obtain ⟨-, -, rfl⟩ := h; exact ⟨hdin, hdout, hks, hms, hpt, hall _ _⟩
  | verify => obtain ⟨-, -, -, rfl⟩ := h; exact ⟨hdin, hdout, hks, hms, hpt, hpti⟩
  | deriveKey => obtain ⟨-, -, -, rfl⟩ := h; exact ⟨hdin, hdout, hall _ _, hms, hpt, hpti⟩
  | segment len => obtain ⟨-, -, -, -, rfl⟩ := h; exact ⟨hdin, hdout, hks, hall _ _, hpt, hpti⟩
  | permFwd => obtain ⟨-, -, -, rfl⟩ := h; exact keepsMarks_dout (hall _ _)
  | permInv => obtain ⟨-, -, -, rfl⟩ := h; exact keepsMarks_dout (hall _ _)
  | encrypt => obtain ⟨-, -, rfl⟩ := h; exact keepsMarks_dout (hall _ _)
  | decrypt => obtain ⟨-, -, -, -, rfl⟩ := h; exact keepsMarks_dout (hall _ _)
  | expand => obtain ⟨-, rfl⟩ := h; exact keepsMarks_dout (marksIn_storeAt_storeAt _ _ _ _ _)
  | subst => obtain ⟨-, -, rfl⟩ := h; exact keepsMarks_dout (marksIn_storeAt _ _ _)

theorem exec_keepsMarks {i : Instr} {s t : State} (h : exec i s = .next t) : KeepsMarks s t := by
  rcases exec_cases h with ⟨e, -, rfl⟩ | ⟨-, -, rfl⟩ | ⟨s', hw, rfl⟩
  · exact keepsMarks_refl s
  · exact keepsMarks_refl s
  · exact hw.keepsMarks

theorem writeReg_keepsMarks (v : Word) (s : State) (r : Reg) : KeepsMarks s (writeReg v s r) := by
  obtain ⟨hdin, hdout, hks, hms, hpt, hpti⟩ := keepsMarks_refl s
  cases r with
  | din j => exact ⟨marksIn_storeAt _ j _, hdout, hks, hms, hpt, hpti⟩
  | ks j => exact ⟨hdin, hdout, marksIn_storeAt _ j _, hms, hpt, hpti⟩
  | ms j => exact ⟨hdin, hdout, hks, marksIn_storeAt _ j _, hpt, hpti⟩
  | pt i => exact ⟨hdin, hdout, hks, hms, marksIn_storeAt _ i _, hpti⟩
  | pti i => exact ⟨hdin, hdout, hks, hms, hpt, marksIn_storeAt _ i _⟩
  | cmd => exact keepsMarks_refl s
  | status => exact keepsMarks_refl s
  | errcode => exact keepsMarks_refl s
  | dout j => exact keepsMarks_refl s

theorem hostAccess_keepsMarks (op : HostOp) (s : State) : KeepsMarks s (hostAccess op s) := by
  rcases hostAccess_cases op s with ⟨r, h⟩ | ⟨v, h⟩ | ⟨r, v, -, -, h⟩ | ⟨p, h⟩ <;> rw [h]
  · exact keepsMarks_refl s
  · exact keepsMarks_refl s
  · exact writeReg_keepsMarks v s r
  · exact keepsMarks_refl s

/-- Every step but the reset keeps what is defined. -/
theorem step_keepsMarks {s t : State} (h : step s = .next t) (hreset : s.schedule.head? ≠ some .reset) :
    KeepsMarks s t := by
  rcases step_cases h with ⟨hr, -⟩ | ⟨-, -, ⟨op, rest, -, rfl⟩ | ⟨w, -, ⟨e, -, rfl⟩ | ⟨i, -, he⟩⟩ | ⟨-, -, rfl⟩⟩
  · exact absurd hr hreset
  · exact hostAccess_keepsMarks op { popTurn s with program := rest }
  · exact keepsMarks_refl s
  · show KeepsMarks (popTurn s) t
    exact exec_keepsMarks he
  · exact keepsMarks_refl s

/-! ### The key words a command reads -/

/-- Two key files with the same odd words (40_datapath.md R118). -/
def SameOddKeys (k k' : RegFile) : Prop := ∀ l : Fin 4, k.get (oddIdx l) = k'.get (oddIdx l)

theorem SameOddKeys.oddMarked_iff {k k' : RegFile} (h : SameOddKeys k k') : oddMarked k ↔ oddMarked k' :=
  forall_congr' fun l => by rw [h l]

theorem SameOddKeys.words {k k' : RegFile} (h : SameOddKeys k k') :
    (fun l => wordsOf k (oddIdx l)) = fun l => wordsOf k' (oddIdx l) :=
  funext fun l => congrArg Cell.value (h l)

/-- No error check reads a key. -/
theorem raises_withKeys {i : Instr} {s : State} {e : ErrCode} (k : RegFile) (h : Raises i s e) :
    Raises i { s with ks := k } e := by
  cases e <;> exact h

theorem passesGate_withKeys {i : Instr} {s : State} (k : RegFile) (h : passesGate i s) :
    passesGate i { s with ks := k } := by
  cases i <;> exact h

/-- Whether an operand is missing depends on the odd keys alone. -/
theorem readsUndefined_withKeys {i : Instr} {s : State} {k : RegFile} (hk : SameOddKeys k s.ks)
    (h : readsUndefined i s) : readsUndefined i { s with ks := k } := by
  cases i with
  | encrypt => exact h.imp_right (mt hk.oddMarked_iff.mp)
  | decrypt => exact h.imp_right (Or.imp_left (mt hk.oddMarked_iff.mp))
  | _ => exact h

/-- What a command writes depends on the odd keys alone, and it writes every key or none. -/
theorem Writes.withKeys {i : Instr} {s s' : State} {k : RegFile} (hk : SameOddKeys k s.ks) (h : Writes i s s') :
    ∃ k', SameOddKeys k' s'.ks ∧ Writes i { s with ks := k } { s' with ks := k' } := by
  cases i with
  | nop => cases h; exact ⟨k, hk, rfl⟩
  | gen => cases h; exact ⟨k, hk, rfl⟩
  | invert => obtain ⟨hpt, hb, rfl⟩ := h; exact ⟨k, hk, hpt, hb, rfl⟩
  | verify => obtain ⟨hpt, hpti, hm, rfl⟩ := h; exact ⟨k, hk, hpt, hpti, hm, rfl⟩
  | permFwd => obtain ⟨htv, hd, hpt, rfl⟩ := h; exact ⟨k, hk, htv, hd, hpt, rfl⟩
  | permInv => obtain ⟨htv, hd, hpti, rfl⟩ := h; exact ⟨k, hk, htv, hd, hpti, rfl⟩
  | deriveKey => obtain ⟨htv, hd, hpt, rfl⟩ := h; exact ⟨_, fun _ => rfl, htv, hd, hpt, rfl⟩
  | segment len => obtain ⟨hl, htv, hd, hpt, rfl⟩ := h; exact ⟨k, hk, hl, htv, hd, hpt, rfl⟩
  | encrypt =>
    obtain ⟨hm, hodd, rfl⟩ := h
    exact ⟨k, hk, hm, hk.oddMarked_iff.mpr hodd, by rw [← hk.words]⟩
  | decrypt =>
    obtain ⟨htv, hd, hodd, hpti, rfl⟩ := h
    exact ⟨k, hk, htv, hd, hk.oddMarked_iff.mpr hodd, hpti, by rw [← hk.words]⟩
  | expand => obtain ⟨hd, rfl⟩ := h; exact ⟨k, hk, hd, rfl⟩
  | subst => obtain ⟨h0, h1, rfl⟩ := h; exact ⟨k, hk, h0, h1, rfl⟩

end Sys2Proof.Machine
end

section
/-! PROOF. The obligations on what commands and steps leave unchanged (10_state.md sections 2 to 5, 40_datapath.md
section 6). -/

namespace Sys2Proof.Proofs

open Sys2Proof.Machine Sys2Proof.Claims

/-- Settles O30: whichever way the command ends, it ends the same way on the other key file. -/
theorem evenKeyWordsAreNeverRead : Obligations.EvenKeyWordsAreNeverRead := by
  intro i s k hk
  obtain ⟨t, ht⟩ := exec_is_next i s
  rcases exec_cases ht with ⟨e, he, rfl⟩ | ⟨hg, hu, rfl⟩ | ⟨s', hw, rfl⟩
  · exact ⟨_, _, ht, exec_of_raises (raises_withKeys k he), rfl, hk⟩
  · exact ⟨_, _, ht, exec_of_undefined (passesGate_withKeys k hg) (readsUndefined_withKeys hk hu), rfl, hk⟩
  · obtain ⟨k', hk', hw'⟩ := hw.withKeys hk
    exact ⟨_, _, ht, exec_of_writes hw', rfl, hk'⟩

/-- Settles O31: the frame of a command's writes is the frame of the command. -/
theorem commandsWriteOnlyTheirFiles : Obligations.CommandsWriteOnlyTheirFiles := fun _ _ _ => exec_inFrame

/-- Settles O54: by the inversion law of `step`, only a command sets TV, and only an access or the reset clears it. -/
theorem onlyTableEventsChangeTv : Obligations.OnlyTableEventsChangeTv := by
  intro s t h
  rcases step_cases h with ⟨hr, rfl⟩ | ⟨-, -, ⟨op, rest, hp, rfl⟩ | ⟨w, hw, ⟨e, -, rfl⟩ | ⟨i, hi, he⟩⟩ | ⟨-, -, rfl⟩⟩
  · exact ⟨fun _ => nofun, fun _ _ => .inl hr⟩
  · generalize hs : ({ popTurn s with program := rest } : State) = u
    have hu : u.tv = s.tv ∧ u.busy = s.busy ∧ u.program = rest := hs ▸ ⟨rfl, rfl, rfl⟩
    obtain ⟨htv, hbusy, hrest⟩ := hu
    refine ⟨fun h0 h1 => ?_, fun h1 h0 => .inr ?_⟩
    · obtain ⟨-, -, -, -, -, -, hclear⟩ := hostAccess_tv (op := op) (s := u) (by rw [htv, h0, h1]; decide)
      cases h1.symm.trans hclear
    · obtain ⟨r, v, rfl, hr, hb, hwrite, -⟩ := hostAccess_tv (op := op) (s := u) (by rw [htv, h0, h1]; decide)
      exact ⟨regOffset r, v, rest, mapped_regOffset r, hr, hbusy ▸ hb, hp,
        by rw [hwrite, writeReg_program, hrest]⟩
  · exact ⟨fun h0 h1 => absurd (h0.symm.trans h1) Bool.false_ne_true,
      fun h1 h0 => absurd (h0.symm.trans h1) Bool.false_ne_true⟩
  · refine ⟨fun h0 h1 => ?_, fun h1 h0 => ?_⟩
    · obtain ⟨hmem, -, hreport⟩ := exec_tv he (by rw [popTurn_tv, h0, h1]; decide)
      exact ⟨w, i, hw, hi, hmem, hreport⟩
    · obtain ⟨-, hset, -⟩ := exec_tv he (by rw [popTurn_tv, h0, h1]; decide)
      cases h0.symm.trans hset
  · exact ⟨fun h0 h1 => absurd (h0.symm.trans h1) Bool.false_ne_true,
      fun h1 h0 => absurd (h0.symm.trans h1) Bool.false_ne_true⟩

/-- Settles O55: each file and table by what its writes keep. -/
theorem definedCellsStayDefined : Obligations.DefinedCellsStayDefined := by
  intro s t h hreset
  obtain ⟨hdin, hdout, hks, hms, hpt, hpti⟩ := step_keepsMarks h hreset
  exact ⟨fun j => ⟨hdin j, hdout j, hks j, hms j⟩, fun i => ⟨hpt i, hpti i⟩⟩

end Sys2Proof.Proofs
end

section
/-! PROOF. The blocks the permutation, marshalling and diagnostic commands write (40_datapath.md R102 to R117,
43_round_diag.md R160): each pair of words as one block. -/

namespace Sys2Proof.Machine

open Sys2Proof.Claims

/-! ### Pairs of words -/

/-- The words `2b` and `2b+1` of split blocks are block `b` (R108). -/
@[simp] theorem consecutiveBlock_splitBlocks (y : Fin 4 → Block) (b : Fin 4) :
    consecutiveBlock (splitBlocks y) b = y b := by
  rw [consecutiveBlock, splitBlocks_evenIdx, splitBlocks_oddIdx, append_halves]

/-- Splitting the consecutive pairs of words gives the words back. -/
@[simp] theorem splitBlocks_consecutiveBlock (w : Segments) : splitBlocks (consecutiveBlock w) = w := funext fun j => by
  rcases evenIdx_or_oddIdx j with hj | hj <;> rw [hj]
  · rw [splitBlocks_evenIdx, consecutiveBlock, firstHalf_append]
  · rw [splitBlocks_oddIdx, consecutiveBlock, secondHalf_append]

/-- The pairing mux takes the reordered words in consecutive pairs (R107, R116). -/
theorem pairingBlock_reorder (u : Segments) (b : Fin 4) : pairingBlock (reorder u) b = consecutiveBlock u b := by
  rw [pairingBlock, reorder, reorder, ← reordIdx_evenIdx, ← reordIdx_oddIdx, reordIdx_reordIdx, reordIdx_reordIdx,
    consecutiveBlock]

/-! ### Permuted blocks -/

theorem permuteBlocks_permutedBy (w : Segments) (t : Table) (b : Fin 4) :
    PermutedBy t (consecutiveBlock w b) (consecutiveBlock (permuteBlocks w t) b) := by
  rw [permuteBlocks, consecutiveBlock_splitBlocks]
  exact applyTable_permutedBy _ t

/-- Block by block, a table and its inverse undo each other (R106). -/
theorem permuteBlocks_permuteBlocks {t u : Table} (h : mutualInverse u t) (w : Segments) :
    permuteBlocks (permuteBlocks w t) u = w := by
  have hblocks : (fun b => applyTable (consecutiveBlock (permuteBlocks w t) b) u) = consecutiveBlock w := by
    funext b
    rw [permuteBlocks, consecutiveBlock_splitBlocks, applyTable_applyTable h]
  rw [permuteBlocks, hblocks, splitBlocks_consecutiveBlock]

/-- The four pairs of words of a marshalled message are the paired words under the table (R107, R108). -/
theorem marshal_permutedBy (w : Segments) (t : Table) (b : Fin 4) :
    PermutedBy t (pairingBlock w b) (consecutiveBlock (marshal w t) b) := by
  rw [consecutiveBlock_marshal]
  exact applyTable_permutedBy _ t

/-- The words a `DECRYPT` lane recovers stand, permuted, where the pairing took them from (R115, R116). -/
theorem decryptLanes_permutedBy (f : Word → Word → Word) (c : Segments) (keys : Fin 4 → Word) (u : Table) (b : Fin 4) :
    PermutedBy u (decPair f (c (evenIdx b)) (c (oddIdx b)) (keys b)) (pairingBlock (decryptLanes f c keys u) b) := by
  rw [decryptLanes, pairingBlock_reorder, consecutiveBlock_splitBlocks]
  exact applyTable_permutedBy _ u

/-! ### The expander on constant words -/

theorem expander_zero (e : ExpMap) : expander e 0#32 = 0#48 := ext_seqBit fun j => by
  rw [seqBit_expander, seqBit, seqBit, BitVec.getMsbD_zero, BitVec.getMsbD_zero]

theorem expander_allOnes (e : ExpMap) : expander e (BitVec.allOnes 32) = BitVec.allOnes 48 := ext_seqBit fun j => by
  rw [seqBit_expander, seqBit_eq_getLsbD _ (e j).isLt, seqBit_eq_getLsbD _ j.isLt, BitVec.getLsbD_allOnes,
    BitVec.getLsbD_allOnes, decide_eq_true (by omega), decide_eq_true (by omega)]

/-! ### What the commands leave when their operands are defined -/

theorem exec_permFwd_of_defined {s : State} (htv : s.tv = true) (hdin : allMarked s.din) (hpt : allMarked s.pt) :
    exec .permFwd s = .next (ends 0#4 { s with dout := storeAll (permuteBlocks (wordsOf s.din) (tableOf s.pt)) }) :=
  exec_of_writes ⟨htv, hdin, hpt, rfl⟩

theorem exec_permInv_of_defined {s : State} (htv : s.tv = true) (hdin : allMarked s.din) (hpti : allMarked s.pti) :
    exec .permInv s = .next (ends 0#4 { s with dout := storeAll (permuteBlocks (wordsOf s.din) (tableOf s.pti)) }) :=
  exec_of_writes ⟨htv, hdin, hpti, rfl⟩

theorem exec_deriveKey_of_defined {s : State} (htv : s.tv = true) (hdin : allMarked s.din) (hpt : allMarked s.pt) :
    exec .deriveKey s = .next (ends 0#4 { s with ks := storeAll (marshal (wordsOf s.din) (tableOf s.pt)) }) :=
  exec_of_writes ⟨htv, hdin, hpt, rfl⟩

theorem exec_expand_of_defined {s : State} (h : (s.din.get 0).marked = true) :
    exec .expand s = .next (ends 0#4 { s with
      dout := storeAt (storeAt s.dout 0 (expandHigh (expander Config.expMap (wordsOf s.din 0)))) 1
        (expandLow (expander Config.expMap (wordsOf s.din 0))) }) :=
  exec_of_writes ⟨h, rfl⟩

theorem exec_subst_of_defined {s : State} (h0 : (s.din.get 0).marked = true) (h1 : (s.din.get 1).marked = true) :
    exec .subst s = .next (ends 0#4 { s with
      dout := storeAt s.dout 0 (substitute Config.sboxRom (substInput (wordsOf s.din 0) (wordsOf s.din 1))) }) :=
  exec_of_writes ⟨h0, h1, rfl⟩

/-- Writing word 1 leaves the word 0 that was written before it, as `EXPAND` writes `DOUT`. -/
theorem get_zero_storeAt_zero_one (v : RegFile) (x y : Word) :
    (storeAt (storeAt v 0 x) 1 y).get 0 = Cell.written x := by
  rw [get_storeAt_ne _ _ (by decide), get_storeAt_self]

end Sys2Proof.Machine
end

section
/-! PROOF. The obligations on what the commands compute (41_control_table.md, 42_marshal.md, 43_round_diag.md,
44_feistel.md). -/

namespace Sys2Proof.Proofs

open Sys2Proof.Machine Sys2Proof.Claims

/-- Settles O15: the draw is a bijection, and the positional inverse undoes it. -/
theorem genStoresTheDrawAndItsInverse : Obligations.GenStoresTheDrawAndItsInverse := by
  intro s
  refine ⟨Config.genDraw s.draws, _, rfl, exec_of_writes (i := .gen) rfl, allMarked_storeTable _,
    allMarked_storeTable _, fun i => ?_, fun i => ?_, rfl⟩
  · rw [complete_pt, tableOf_storeTable]
  · rw [complete_pti, tableOf_storeTable]
    exact inverseOf_apply (genDraw_isBijection s.draws) i

/-- Settles O16: a success, an error, a fault. -/
theorem invertWritesTheInverse : Obligations.InvertWritesTheInverse := by
  refine fun s => ⟨fun hpt hinj => ?success, fun i j hij mi mj he => ?error, fun hpt hr => ?fault⟩
  case success =>
    have hb : isBijection (tableOf s.pt) := (isBijection_iff_injective _).mpr hinj
    refine ⟨_, exec_of_writes (i := .invert) ⟨hpt, hb, rfl⟩, allMarked_storeTable _, fun i => ?_, rfl⟩
    rw [complete_pti, tableOf_storeTable]
    exact inverseOf_apply hb i
  case error => exact exec_ends_of_raises (e := .tableNotBijection) ⟨rfl, i, j, hij, mi, mj, he⟩
  case fault => exact exec_of_undefined (i := .invert) hr hpt

/-- Settles O17: a success either way round, an error, a fault. -/
theorem verifyAcceptsMutualInverses : Obligations.VerifyAcceptsMutualInverses := by
  intro s
  have herror : tablesMismatch s.pt s.pti → exec .verify s = .next (ends 6#4 s) := fun h =>
    exec_ends_of_raises (e := .tableMismatch) ⟨rfl, h⟩
  refine ⟨fun hpt hpti hm => ⟨?success, ?swapped⟩, fun i mi mu hne => ?astray, herror, fun hu hm => ?fault⟩
  case success => exact exec_of_writes (i := .verify) ⟨hpt, hpti, hm, rfl⟩
  case swapped => exact exec_of_writes (i := .verify) ⟨hpti, hpt, mutualInverse_symm hm, rfl⟩
  case astray => exact herror (.inr (.inr (.inl ⟨i, mi, mu, hne⟩)))
  case fault => exact exec_of_undefined (i := .verify) hm (not_and_or.mp hu)

/-- Settles O18: each pair of words of `DOUT` is the block of `DIN` under the table. -/
theorem permCommandsPermuteBlocks : Obligations.PermCommandsPermuteBlocks := by
  refine fun s htv hdin => ⟨fun hpt => ?_, fun hpti => ?_⟩
  · refine ⟨_, exec_permFwd_of_defined htv hdin hpt, allMarked_storeAll _, fun b => ?_, rfl⟩
    rw [ends, wordsOf_storeAll]
    exact permuteBlocks_permutedBy _ _ b
  · refine ⟨_, exec_permInv_of_defined htv hdin hpti, allMarked_storeAll _, fun b => ?_, rfl⟩
    rw [ends, wordsOf_storeAll]
    exact permuteBlocks_permutedBy _ _ b

/-- Settles O19: the second command finds the first one's words in `DIN` and undoes its table. -/
theorem permCommandsUndoEachOther : Obligations.PermCommandsUndoEachOther := by
  intro s htv htables hdin
  obtain ⟨hleft, hright⟩ := htables.inverses
  obtain ⟨hpt, hpti, -⟩ := htables
  refine ⟨⟨_, _, exec_permFwd_of_defined htv hdin hpt, exec_permInv_of_defined htv (allMarked_storeAll _) hpti,
    allMarked_storeAll _, ?_⟩, ⟨_, _, exec_permInv_of_defined htv hdin hpti,
    exec_permFwd_of_defined htv (allMarked_storeAll _) hpt, allMarked_storeAll _, ?_⟩⟩
  · simp only [ends, wordsOf_storeAll]
    exact permuteBlocks_permuteBlocks hright _
  · simp only [ends, wordsOf_storeAll]
    exact permuteBlocks_permuteBlocks hleft _

/-- Settles O21: the four pairs are the four blocks of the marshalled digest. -/
theorem deriveKeyMarshalsTheDigest : Obligations.DeriveKeyMarshalsTheDigest := by
  rintro s d htv hdin hpt rfl
  have hpair := marshal_permutedBy (wordsOf s.din) (tableOf s.pt)
  exact ⟨_, _, exec_deriveKey_of_defined htv hdin hpt, allMarked_storeAll _, (wordsOf_storeAll _).symm,
    hpair 0, hpair 1, hpair 2, hpair 3, rfl⟩

/-- Settles O22: the four pairs are the four blocks of the marshalled plaintext; another length is an error. -/
theorem segmentMarshalsThePlaintext : Obligations.SegmentMarshalsThePlaintext := by
  refine ⟨?_, fun s len h => exec_ends_of_raises (raises_length h s)⟩
  rintro s d htv hdin hpt rfl
  have hpair := marshal_permutedBy (wordsOf s.din) (tableOf s.pt)
  exact ⟨_, _, exec_segment_of_defined htv hdin hpt, allMarked_storeAll _, (wordsOf_storeAll _).symm,
    hpair 0, hpair 1, hpair 2, hpair 3, rfl⟩

/-- Settles O25: lane by lane, at the two places the reorder mux sends the lane's words to. -/
theorem decryptInvertsRoundPermutationAndPairing : Obligations.DecryptInvertsRoundPermutationAndPairing := by
  rintro s c htv hdin hks hpti rfl
  have hlane := decryptLanes_permutedBy engineF (wordsOf s.din) (fun l => wordsOf s.ks (oddIdx l)) (tableOf s.pti)
  exact ⟨_, _, fun l => engineF (wordsOf s.din (evenIdx l)) (wordsOf s.ks (oddIdx l)),
    exec_decrypt_of_defined htv hdin hks hpti, allMarked_storeAll _, (wordsOf_storeAll _).symm,
    fun l => engineF_roundValue _ _, hlane 0, hlane 1, hlane 2, hlane 3, rfl⟩

/-- Settles O27: the two words written are the two parts of the expanded word. -/
theorem expandShowsTheExpander : Obligations.ExpandShowsTheExpander := by
  refine fun s h => ⟨_, _, exec_expand_of_defined h, expander_expandedTo _ _, get_zero_storeAt_zero_one _ _ _,
    get_storeAt_self _ _ _, fun j hj => ?_, rfl⟩
  have h0 : (0 : Fin 8) ≠ j := by rintro rfl; exact absurd hj (by decide)
  have h1 : (1 : Fin 8) ≠ j := by rintro rfl; exact absurd hj (by decide)
  exact (get_storeAt_ne _ _ h1).trans (get_storeAt_ne _ _ h0)

/-- Settles O28: the expander copies bits, so it keeps a word of equal bits. -/
theorem expandOfConstantWords : Obligations.ExpandOfConstantWords := by
  intro s t hdin h
  obtain rfl := Host.Outcome.next.inj ((exec_expand_of_defined hdin).symm.trans h)
  simp only [ends, wordsOf, get_zero_storeAt_zero_one, get_storeAt_self, written_value]
  refine ⟨fun hw => ?_, fun hw => ?_⟩
  · rw [hw, expander_zero]
    exact ⟨rfl, rfl⟩
  · rw [hw, show 0xFFFFFFFF#32 = BitVec.allOnes 32 from rfl, expander_allOnes]
    exact ⟨rfl, rfl⟩

/-- Settles O29: the word written is the S-boxes' output on the input of R161. -/
theorem substShowsTheSboxes : Obligations.SubstShowsTheSboxes := by
  refine fun s h0 h1 => ⟨_, exec_subst_of_defined h0 h1, ?_, ?_, fun j hj => ?_, rfl⟩
  · rw [ends, get_storeAt_self, written_marked]
  · simp only [ends, wordsOf, get_storeAt_self, written_value]
    exact substitute_substitutedTo _ _
  · have hne : (0 : Fin 8) ≠ j := by rintro rfl; exact absurd hj (by decide)
    exact get_storeAt_ne _ _ hne

/-- Settles O40: the right half passes through, and the round value cancels in the left one. -/
theorem decryptPairUndoesEncryptPair : Obligations.DecryptPairUndoesEncryptPair := by
  intro f l r k
  rw [encPair, firstHalf_append, secondHalf_append, decPair, BitVec.xor_assoc, BitVec.xor_self, BitVec.xor_zero]

end Sys2Proof.Proofs
end

section
/-! PROOF. The byte view of eight words (20_memory.md R58, 40_datapath.md R101): every bit of a word is a bit of one of
its bytes. -/

namespace Sys2Proof.Machine

/-- Bit `t` of byte `k` stands in word `k div 4`, above the bytes that follow it there (R58). -/
theorem getLsbD_unpackBytes (w : Segments) (k : Fin 32) {t : Nat} (ht : t < 8) :
    (unpackBytes w k).getLsbD t = (w ⟨k.val / 4, by omega⟩).getLsbD (24 - 8 * (k.val % 4) + t) := by
  rw [unpackBytes, BitVec.getLsbD_extractLsb', decide_eq_true ht, Bool.true_and]

/-- Words with the same bytes are the same. -/
theorem unpackBytes_injective : Function.Injective unpackBytes := fun v w h => funext fun j =>
  BitVec.eq_of_getLsbD_eq fun i hi => by
    have hbit := congrArg (fun m => (m ⟨4 * j.val + (3 - i / 8), by omega⟩ : BitVec 8).getLsbD (i % 8)) h
    have hword : (4 * j.val + (3 - i / 8)) / 4 = j.val := by omega
    have hplace : 24 - 8 * ((4 * j.val + (3 - i / 8)) % 4) + i % 8 = i := by omega
    simpa only [getLsbD_unpackBytes _ _ (Nat.mod_lt i (by decide)), hword, hplace] using hbit

/-- Packing undoes unpacking (R58, R101). -/
theorem packBytes_unpackBytes (w : Segments) : packBytes (unpackBytes w) = w :=
  unpackBytes_injective (unpackBytes_packBytes (unpackBytes w))

/-- Element `8k + t` of the sequence in the words is element `t` of byte `k`, the most significant first (R101). -/
theorem messageBit_eq_getLsbD (w : Segments) (k : Fin 32) (t : Fin 8) :
    messageBit w ⟨8 * k.val + t.val, by omega⟩ = (unpackBytes w k).getLsbD (7 - t.val) := by
  have hword : (8 * k.val + t.val) / 32 = k.val / 4 := by omega
  have hplace : 32 - 1 - (8 * k.val + t.val) % 32 = 24 - 8 * (k.val % 4) + (7 - t.val) := by omega
  rw [getLsbD_unpackBytes w k (by omega), messageBit, seqBit_eq_getLsbD _ (Nat.mod_lt _ (by decide))]
  simp only [hword, hplace]

end Sys2Proof.Machine
end

section
/-! PROOF. What the registers read as (20_memory.md R53) and what a list of writes leaves (30_encoding.md R80). -/

namespace Sys2Proof.Machine

open Sys2Proof.Claims

/-- `STATUS` as the sum of its four flags (R53). -/
theorem statusWord_toNat (s : State) :
    (statusWord s).toNat = 8 * s.tv.toNat + 4 * s.err.toNat + 2 * s.done.toNat + s.busy.toNat := by
  rw [statusWord]
  generalize s.tv = tv, s.err = err, s.done = done, s.busy = busy
  revert tv err done busy
  decide

/-- A defined entry reads as its position (R53). -/
theorem read_entry {v : Sram} {i : Fin 64} (h : (v.get i).marked = true) :
    (v.get i).read.map (fun x => x.setWidth 32) = some (BitVec.ofNat 32 (tableOf v i).val) := by
  rw [read_of_marked h, Option.map_some, tableOf, entryIndex, BitVec.ofNat_toNat]

/-! ### The cells that a list of stores leaves -/

theorem get_foldl_storeAt {n w : Nat} (l : List (Fin n)) (x : Fin n → BitVec w) (c : Vector (Cell w) n) (k : Fin n) :
    (l.foldl (fun c j => storeAt c j (x j)) c).get k = if k ∈ l then Cell.written (x k) else c.get k := by
  induction l generalizing c with
  | nil => simp
  | cons j l ih =>
    rw [List.foldl_cons, ih, get_storeAt]
    by_cases hl : k ∈ l
    · simp [hl]
    · by_cases hj : j = k
      · subst hj; simp
      · simp [hl, hj, Ne.symm hj]

/-- Storing each cell of a vector once stores them all. -/
theorem foldl_storeAt_finRange {n w : Nat} (x : Fin n → BitVec w) (c : Vector (Cell w) n) :
    (List.finRange n).foldl (fun c j => storeAt c j (x j)) c = storeAll x :=
  eq_storeAll_of_get fun k => by rw [get_foldl_storeAt, if_pos (List.mem_finRange k)]

/-! ### The accesses of `ldw` and `ldtab` -/

theorem allMade_cons (op : HostOp) (ops : List HostOp) (s : State) :
    allMade (op :: ops) s = allMade ops (hostAccess op s) := rfl

/-- Accesses that write registers `x j` of an idle engine one after another, where each write stores a cell of one
vector: `put c` is the state with the cells `c` there. -/
theorem allMade_writes {n w : Nat} {x : Fin n → Reg} {v : Fin n → Word} {cut : Word → BitVec w}
    {put : Vector (Cell w) n → State} (hbusy : ∀ c, (put c).busy = false)
    (hwrite : ∀ c j, writeReg (v j) (put c) (x j) = put (storeAt c j (cut (v j)))) (l : List (Fin n))
    (c : Vector (Cell w) n) :
    allMade (l.flatMap fun j => sw (x j) (v j)) (put c) =
      put (l.foldl (fun c j => storeAt c j (cut (v j))) c) := by
  induction l generalizing c with
  | nil => rfl
  | cons j l ih =>
    have hcons : (j :: l).flatMap (fun j => sw (x j) (v j)) =
        .write (regAddress (x j)) 4 (v j) :: l.flatMap fun j => sw (x j) (v j) := rfl
    rw [hcons, allMade_cons, hostAccess_write_reg _ _ (hbusy c), hwrite, ih, List.foldl_cons]

/-- The same where the first write does more than store its cell, as that of a table entry clears TV. -/
theorem allMade_load {n w : Nat} {s : State} {c₀ : Vector (Cell w) (n + 1)} {x : Fin (n + 1) → Reg}
    {v : Fin (n + 1) → Word} {cut : Word → BitVec w} {put : Vector (Cell w) (n + 1) → State} (hs : s.busy = false)
    (hfirst : writeReg (v 0) s (x 0) = put (storeAt c₀ 0 (cut (v 0)))) (hbusy : ∀ c, (put c).busy = false)
    (hwrite : ∀ c j, writeReg (v j) (put c) (x j) = put (storeAt c j (cut (v j)))) :
    allMade ((List.finRange (n + 1)).flatMap fun j => sw (x j) (v j)) s = put (storeAll fun j => cut (v j)) := by
  have hcells := foldl_storeAt_finRange (fun j => cut (v j)) c₀
  rw [List.finRange_succ] at hcells ⊢
  rw [List.foldl_cons] at hcells
  rw [← hcells, ← allMade_writes hbusy hwrite, ← hfirst, ← hostAccess_write_reg _ _ hs]
  rfl

end Sys2Proof.Machine
end

section
/-! PROOF. The obligations on bytes, on the register map, on the reads and on the loading pseudo-instructions
(40_datapath.md section 1, 20_memory.md sections 1, 3 and 4, 30_encoding.md section 5). -/

namespace Sys2Proof.Proofs

open Sys2Proof.Machine Sys2Proof.Claims

/-- Settles O41: packing and unpacking are inverse, so the byte view of the packed words is the message. -/
theorem bytesPackBigEndian : Obligations.BytesPackBigEndian := by
  refine fun m k => ⟨congrFun (unpackBytes_packBytes m) k, fun t => ?_, unpackBytes_packBytes m, packBytes_unpackBytes⟩
  rw [messageBit_eq_getLsbD, unpackBytes_packBytes]

/-- Settles O42: the map is the inverse of the numbering of the registers, whose offsets are the mapped ones. -/
theorem registerMapIsExact : Obligations.RegisterMapIsExact := by
  refine ⟨fun _ _ => regAt_eq_some_iff, fun off => ⟨fun h => ?_, fun h => ?_⟩⟩
  · obtain ⟨r, hr⟩ := Option.isSome_iff_exists.mp h
    rw [regAt_eq_some_iff.mp hr]
    exact mapped_regOffset r
  · obtain ⟨r, rfl⟩ := exists_reg_of_mapped h
    rw [regAt_regOffset]
    rfl

/-- Settles O44: each read is an accepted read of the register at that offset. -/
theorem hostReadsReturnTheRegister : Obligations.HostReadsReturnTheRegister := by
  refine ⟨fun s addr log => rfl, fun s => ⟨fun v => { s with readLog := v :: s.readLog }, fun _ => rfl,
    ⟨_, hostAccess_read_reg (r := .status) (.inr rfl) rfl, statusWord_toNat s⟩,
    ⟨_, hostAccess_read_reg (r := .errcode) (.inr rfl) rfl, BitVec.toNat_setWidth_of_le (by decide)⟩,
    fun hb => ⟨?cmd, fun j => ?files, fun i => ?tables⟩⟩⟩
  case cmd => exact hostAccess_read_reg (r := .cmd) (.inl hb) rfl
  case files =>
    exact ⟨fun h => hostAccess_read_reg (r := .din j) (.inl hb) (read_of_marked h),
      fun h => hostAccess_read_reg (r := .dout j) (.inl hb) (read_of_marked h),
      fun h => hostAccess_read_reg (r := .ks j) (.inl hb) (read_of_marked h),
      fun h => hostAccess_read_reg (r := .ms j) (.inl hb) (read_of_marked h)⟩
  case tables =>
    exact ⟨fun h => hostAccess_read_reg (r := .pt i) (.inl hb) (read_entry h),
      fun h => hostAccess_read_reg (r := .pti i) (.inl hb) (read_entry h)⟩

/-- Settles O59: every access is an accepted write, and together they store every cell. -/
theorem loadPseudoInstructionsFillFilesAndTables : Obligations.LoadPseudoInstructionsFillFilesAndTables := by
  intro s w v hb
  refine ⟨⟨storeAll w, get_storeAll w, ?din, ?ks, ?ms⟩, ⟨storeAll fun i => (v i).setWidth 6, get_storeAll _, ?pt, ?pti⟩⟩
  case din =>
    exact allMade_load (put := fun c => { s with din := c }) (cut := id) hb rfl (fun _ => hb) fun _ _ => rfl
  case ks =>
    exact allMade_load (put := fun c => { s with ks := c }) (cut := id) hb rfl (fun _ => hb) fun _ _ => rfl
  case ms =>
    exact allMade_load (put := fun c => { s with ms := c }) (cut := id) hb rfl (fun _ => hb) fun _ _ => rfl
  case pt =>
    rw [funext fun i => BitVec.setWidth_eq_extractLsb' (x := v i) (by decide)]
    exact allMade_load (put := fun c => { s with pt := c, tv := false }) (cut := fun x => x.extractLsb' 0 6) hb rfl
      (fun _ => hb) fun _ _ => rfl
  case pti =>
    rw [funext fun i => BitVec.setWidth_eq_extractLsb' (x := v i) (by decide)]
    exact allMade_load (put := fun c => { s with pti := c, tv := false }) (cut := fun x => x.extractLsb' 0 6) hb rfl
      (fun _ => hb) fun _ _ => rfl

end Sys2Proof.Proofs
end

section
/-! PROOF. When the defined entries of a table, or of two, allow a bijection with its inverse (60_exceptions.md R202;
log entry 11): what is defined is a partial matching of positions with entries, and such a matching extends. -/

namespace Sys2Proof.Machine

open Sys2Proof.Claims

/-- A relation that matches each position with at most one entry, and each entry with at most one position, is part of
a permutation. -/
theorem exists_perm_of_matching {R : Fin 64 → Fin 64 → Prop} (hfun : ∀ i j j', R i j → R i j' → j = j')
    (hinj : ∀ i i' j, R i j → R i' j → i = i') : ∃ g : Equiv.Perm (Fin 64), ∀ i j, R i j → g i = j := by
  classical
  let matched : Finset (Fin 64) := {i | ∃ j, R i j}
  have hchosen : ∀ i, ∃ j, i ∈ matched → R i j := fun i => by
    by_cases hi : ∃ j, R i j
    · exact hi.imp fun j hj _ => hj
    · exact ⟨i, fun hm => absurd (Finset.mem_filter.mp hm).2 hi⟩
  choose f hf using hchosen
  have hinjOn : Set.InjOn f matched := fun i hi i' hi' he => hinj i i' (f i) (hf i hi) (he ▸ hf i' hi')
  obtain ⟨g, hg⟩ := Finset.exists_equiv_extend_of_card_eq (t := Finset.univ) rfl (Finset.subset_univ _) hinjOn
  refine ⟨g.trans (Equiv.subtypeUnivEquiv Finset.mem_univ), fun i j hij => ?_⟩
  have hi : i ∈ matched := Finset.mem_filter.mpr ⟨Finset.mem_univ i, j, hij⟩
  exact (hg i hi).trans (hfun i _ _ (hf i hi) hij)

/-- Entry `i` of the table is defined and is `k`. -/
def Holds (v : Sram) (i k : Fin 64) : Prop := (v.get i).marked = true ∧ tableOf v i = k

theorem Holds.functional {v : Sram} {i k k' : Fin 64} (h : Holds v i k) (h' : Holds v i k') : k = k' :=
  h.2.symm.trans h'.2

/-- A table without equal entries holds each entry at one position. -/
theorem Holds.injective {v : Sram} (hr : ¬ tableRepeats v) {i i' k : Fin 64} (h : Holds v i k) (h' : Holds v i' k) :
    i = i' := by
  by_contra hne
  exact hr ⟨i, i', hne, h.1, h'.1, h.2.trans h'.2.symm⟩

/-- Where a table does not lead astray, a defined entry is led back to by whatever is defined where it leads. -/
theorem Holds.leads_back {v u : Sram} (ha : ¬ tableAstray v u) {i k j : Fin 64} (h : Holds v i k) (h' : Holds u k j) :
    i = j := by
  obtain ⟨mi, rfl⟩ := h
  obtain ⟨mk, rfl⟩ := h'
  by_contra hne
  exact ha ⟨i, mi, mk, Ne.symm hne⟩

/-- Defined entries without a repetition are part of an injective table (R103). -/
theorem exists_injective_extension {v : Sram} (hr : ¬ tableRepeats v) :
    ∃ t : Table, (∀ i, (v.get i).marked = true → t i = tableOf v i) ∧ Function.Injective t := by
  obtain ⟨g, hg⟩ := exists_perm_of_matching (R := Holds v) (fun _ _ _ h h' => h.functional h')
    fun _ _ _ h h' => h.injective hr h'
  exact ⟨g, fun i mi => hg i _ ⟨mi, rfl⟩, g.injective⟩

/-- Defined entries of two tables without a mismatch are part of a bijection and its inverse (R105): position `i` is
matched with `k` where the first table holds `k` at `i` or the second holds `i` at `k`. -/
theorem exists_mutualInverse_extension {v u : Sram} (hm : ¬ tablesMismatch v u) :
    ∃ t w : Table, (∀ i, (v.get i).marked = true → t i = tableOf v i) ∧
      (∀ i, (u.get i).marked = true → w i = tableOf u i) ∧ mutualInverse t w := by
  obtain ⟨hv, hu, hvu, huv⟩ : ¬ tableRepeats v ∧ ¬ tableRepeats u ∧ ¬ tableAstray v u ∧ ¬ tableAstray u v := by
    simpa only [tablesMismatch, not_or] using hm
  obtain ⟨g, hg⟩ := exists_perm_of_matching (R := fun i k => Holds v i k ∨ Holds u k i)
    (by
      rintro i k k' (h | h) (h' | h')
      · exact h.functional h'
      · exact (h'.leads_back huv h).symm
      · exact h.leads_back huv h'
      · exact h.injective hu h')
    (by
      rintro i i' k (h | h) (h' | h')
      · exact h.injective hv h'
      · exact h.leads_back hvu h'
      · exact (h'.leads_back hvu h).symm
      · exact h.functional h')
  refine ⟨g, g.symm, fun i mi => hg i _ (.inl ⟨mi, rfl⟩), fun k mk => ?_, g.symm_apply_apply⟩
  exact (Equiv.symm_apply_eq g).mpr (hg _ k (.inr ⟨mk, rfl⟩)).symm

/-- A repetition among the defined entries stays in every table that agrees with them. -/
theorem not_injective_of_repeats {v : Sram} (hr : tableRepeats v) {t : Table}
    (ht : ∀ i, (v.get i).marked = true → t i = tableOf v i) : ¬ Function.Injective t := by
  obtain ⟨i, j, hij, mi, mj, he⟩ := hr
  exact fun hinj => hij (hinj (by rw [ht i mi, ht j mj, he]))

/-- A command ends with an error exactly where it raises it. -/
theorem exec_eq_ends_iff {i : Instr} {s : State} {e : ErrCode} (hf : s.fault = none) (he : e ≠ .ok) :
    exec i s = .next (ends (codeOf e) s) ↔ Raises i s e :=
  ⟨fun h => raises_of_errcode h hf he rfl, exec_ends_of_raises⟩

end Sys2Proof.Machine
end

section
/-! PROOF. The obligation on the errors of `INVERT` and `VERIFY` on partly defined tables (60_exceptions.md section 2;
log entry 11). -/

namespace Sys2Proof.Proofs

open Sys2Proof.Machine Sys2Proof.Claims

/-- Settles O58: an error that shows among the defined entries stays in every extension, and where none shows a
bijection extends them. -/
theorem tableErrorsAreForcedByTheDefinedEntries : Obligations.TableErrorsAreForcedByTheDefinedEntries := by
  intro s hf
  have hinvert : exec .invert s = .next (ends 5#4 s) ↔ tableRepeats s.pt :=
    (exec_eq_ends_iff (e := .tableNotBijection) hf (by decide)).trans (and_iff_right rfl)
  have hverify : exec .verify s = .next (ends 6#4 s) ↔ tablesMismatch s.pt s.pti :=
    (exec_eq_ends_iff (e := .tableMismatch) hf (by decide)).trans (and_iff_right rfl)
  refine ⟨hinvert.trans ⟨fun hr t ht => not_injective_of_repeats hr ht, fun hall => ?_⟩,
    hverify.trans ⟨fun hm t u ht hu => ?_, fun hall => ?_⟩⟩
  · by_contra hr
    obtain ⟨t, ht, hinj⟩ := exists_injective_extension hr
    exact hall t ht hinj
  · by_contra hno
    exact no_mismatch_of_extension ht hu (not_exists_not.mp hno) hm
  · by_contra hm
    obtain ⟨t, u, ht, hu, hinv⟩ := exists_mutualInverse_extension hm
    obtain ⟨i, hne⟩ := hall t u ht hu
    exact hne (hinv i)

end Sys2Proof.Proofs
end
